-- ==== Sys2Proof/Word.lean ====
section
/-! DEFINITION. The word types of AArch32 SRS: register and address width 32, byte width 8
(00_scope.md R5, 20_memory.md R50), halfword width 16 (30_encoding.md R70). Arithmetic on a
`Word` is modulo 2^32, as 00_scope.md R8 asks. -/

namespace Sys2Proof

/-- `bits(32)`: a register, an address or an instruction word (00_scope.md R5). -/
abbrev Word := BitVec 32

/-- `bits(16)`: one halfword of a T32 instruction (30_encoding.md R70). -/
abbrev HalfWord := BitVec 16

/-- `bits(8)`: the contents of one byte address (20_memory.md R50). -/
abbrev Byte := BitVec 8

end Sys2Proof
end

