-- ==== Sys2Proof/Syntax.lean ====
section
/-! DEFINITION. The instructions of AArch32 SRS: one constructor for each row of
spec/opcode_table.json (30_encoding.md R70, R78, R81), the names of the encodings, the
instruction sets, and the lines of assembler syntax (30_encoding.md R82 to R88). -/

namespace Sys2Proof

/-- "enumeration InstrSet" with the members A64, A32 and T32 (10_state.md R28). -/
inductive InstrSet
  | a64
  | a32
  | t32
deriving DecidableEq, Repr

/-- The six encodings, under the names spec/opcode_table.json gives them (30_encoding.md R78). -/
inductive Encoding
  | srsdaA1
  | srsdbA1
  | srsiaA1
  | srsibA1
  | srsT1
  | srsT2
deriving DecidableEq, Repr

/-- One constructor per row of the opcode table. `W` is bit 21, the writeback flag; `sb` is bits
19:5, the fifteen should-be bits, which take no part in selecting the instruction but decide
whether it may execute (30_encoding.md R75); `mode` is bits 4:0, the specified mode's number
(30_encoding.md R77). -/
inductive Instr
  /-- SRSDA, encoding A1, Decrement After (40_srs.md R116). -/
  | srsdaA1 (W : Bool) (sb : BitVec 15) (mode : BitVec 5)
  /-- SRSDB, encoding A1, Decrement Before (40_srs.md R117). -/
  | srsdbA1 (W : Bool) (sb : BitVec 15) (mode : BitVec 5)
  /-- SRSIA, encoding A1, Increment After (40_srs.md R118). -/
  | srsiaA1 (W : Bool) (sb : BitVec 15) (mode : BitVec 5)
  /-- SRSIB, encoding A1, Increment Before (40_srs.md R119). -/
  | srsibA1 (W : Bool) (sb : BitVec 15) (mode : BitVec 5)
  /-- SRSDB, encoding T1 (40_srs.md R120). -/
  | srsdbT1 (W : Bool) (sb : BitVec 15) (mode : BitVec 5)
  /-- SRSIA, encoding T2 (40_srs.md R121). -/
  | srsiaT2 (W : Bool) (sb : BitVec 15) (mode : BitVec 5)
deriving DecidableEq, Repr

/-- Which row of the opcode table an instruction is. -/
def Instr.encoding : Instr → Encoding
  | .srsdaA1 _ _ _ => .srsdaA1
  | .srsdbA1 _ _ _ => .srsdbA1
  | .srsiaA1 _ _ _ => .srsiaA1
  | .srsibA1 _ _ _ => .srsibA1
  | .srsdbT1 _ _ _ => .srsT1
  | .srsiaT2 _ _ _ => .srsT2

/-- The writeback flag of an instruction (30_encoding.md R77, R86). -/
def Instr.W : Instr → Bool
  | .srsdaA1 W _ _ => W
  | .srsdbA1 W _ _ => W
  | .srsiaA1 W _ _ => W
  | .srsibA1 W _ _ => W
  | .srsdbT1 W _ _ => W
  | .srsiaT2 W _ _ => W

/-- The should-be bits 19:5 of an instruction (30_encoding.md R75). -/
def Instr.sb : Instr → BitVec 15
  | .srsdaA1 _ sb _ => sb
  | .srsdbA1 _ sb _ => sb
  | .srsiaA1 _ sb _ => sb
  | .srsibA1 _ sb _ => sb
  | .srsdbT1 _ sb _ => sb
  | .srsiaT2 _ sb _ => sb

/-- The specified mode's number (30_encoding.md R77, R87). -/
def Instr.mode : Instr → BitVec 5
  | .srsdaA1 _ _ mode => mode
  | .srsdbA1 _ _ mode => mode
  | .srsiaA1 _ _ mode => mode
  | .srsibA1 _ _ mode => mode
  | .srsdbT1 _ _ mode => mode
  | .srsiaT2 _ _ mode => mode

/-- The instruction of an encoding with given fields. -/
def Encoding.instr (e : Encoding) (W : Bool) (sb : BitVec 15) (mode : BitVec 5) : Instr :=
  match e with
  | .srsdaA1 => .srsdaA1 W sb mode
  | .srsdbA1 => .srsdbA1 W sb mode
  | .srsiaA1 => .srsiaA1 W sb mode
  | .srsibA1 => .srsibA1 W sb mode
  | .srsT1 => .srsdbT1 W sb mode
  | .srsT2 => .srsiaT2 W sb mode

/-- The mnemonics of the assembler templates (30_encoding.md R82, R88) and the four
pseudo-instructions (30_encoding.md R83). `srs` is the bare spelling of `srsia`. -/
inductive AsmMnemonic
  | srsda
  | srsdb
  | srsia
  | srs
  | srsib
  | srsfa
  | srsea
  | srsfd
  | srsed
deriving DecidableEq, Repr

/-- The field `<c>`: `al`, or some condition other than AL. The standard condition codes are not in
the source (30_encoding.md R84), so the others are not told apart. -/
inductive AsmCond
  | al
  | conditional
deriving DecidableEq, Repr

/-- The field `<q>`: `.N` or `.W` (30_encoding.md R85). -/
inductive AsmWidth
  | narrow
  | wide
deriving DecidableEq, Repr

/-- One line `MNEMONIC[<c>][<q>] SP[!], #<mode>` of assembler syntax (30_encoding.md R82). An
optional field that is left out is `none`; `bang` says whether `!` is written. -/
structure AsmLine where
  mnemonic : AsmMnemonic
  cond : Option AsmCond
  width : Option AsmWidth
  bang : Bool
  mode : Nat
deriving DecidableEq, Repr

end Sys2Proof
end

