-- ==== Sys2Proof/Decode.lean ====
section
/-! DEFINITION. Decoding and encoding (30_encoding.md R70 to R81), the byte image of an instruction
(30_encoding.md R74), and the assembler of 30_encoding.md R82 to R88. -/

namespace Sys2Proof

/-- The instruction set an encoding belongs to (30_encoding.md R70, R80). -/
def Encoding.iset : Encoding → InstrSet
  | .srsdaA1 => .a32
  | .srsdbA1 => .a32
  | .srsiaA1 => .a32
  | .srsibA1 => .a32
  | .srsT1 => .t32
  | .srsT2 => .t32

/-- Bits 31:22 of `match` (30_encoding.md R71 to R73): for A1 1111100, then P, U and 1; for T1 and
T2 1110100, then opc and 0. -/
def Encoding.top : Encoding → BitVec 10
  | .srsdaA1 => 0b1111100001#10
  | .srsdbA1 => 0b1111100101#10
  | .srsiaA1 => 0b1111100011#10
  | .srsibA1 => 0b1111100111#10
  | .srsT1 => 0b1110100000#10
  | .srsT2 => 0b1110100110#10

/-- Bits 19:5 of `should_be` (30_encoding.md R81): 0x000D0500 for A1 (Rn = 1101, op = 00000101000),
0x000DC000 for T1 and T2 (Rn = 1101, P = 1, M = 1, then nine zeros), each shifted right by 5. -/
def Encoding.shouldBe : Encoding → BitVec 15
  | .srsdaA1 => 0b110100000101000#15
  | .srsdbA1 => 0b110100000101000#15
  | .srsiaA1 => 0b110100000101000#15
  | .srsibA1 => 0b110100000101000#15
  | .srsT1 => 0b110111000000000#15
  | .srsT2 => 0b110111000000000#15

/-- The six rows, in the order of spec/opcode_table.json. -/
def Encoding.all : List Encoding :=
  [.srsdaA1, .srsdbA1, .srsiaA1, .srsibA1, .srsT1, .srsT2]

/-- The instruction set an instruction belongs to. -/
def Instr.iset (i : Instr) : InstrSet :=
  i.encoding.iset

/-- Bits 31:22: with bit 20, the bits `mask` covers (30_encoding.md R81). -/
def topField (w : Word) : BitVec 10 :=
  w.extractLsb' 22 10

/-- Bit 21, `W` (30_encoding.md R71 to R73). -/
def wField (w : Word) : Bool :=
  w.getLsbD 21

/-- Bit 20, `L`, fixed at 0 (30_encoding.md R71 to R73). -/
def lField (w : Word) : Bool :=
  w.getLsbD 20

/-- Bits 19:5, the should-be bits (30_encoding.md R81). -/
def sbField (w : Word) : BitVec 15 :=
  w.extractLsb' 5 15

/-- Bits 4:0, `mode` (30_encoding.md R71 to R73). -/
def modeField (w : Word) : BitVec 5 :=
  w.extractLsb' 0 5

/-- The word's unparenthesised fixed bits are the row's (30_encoding.md R75, R81). -/
def Encoding.fits (e : Encoding) (w : Word) : Bool :=
  topField w == e.top && !lField w

/-- The SRS instruction a word is in an instruction set, if it is one (30_encoding.md R76, R80). -/
def decodeWord (iset : InstrSet) (w : Word) : Option Instr :=
  match Encoding.all.find? fun e => e.iset == iset && e.fits w with
  | some e => some (e.instr (wField w) (sbField w) (modeField w))
  | none => none

/-- The bytes of an instruction word at addresses a, a+1, a+2, a+3 (30_encoding.md R74): an A32 word
little-endian; in T32 `hw1` (bits 31:16) first, each halfword little-endian. A64 has no SRS
encoding; it is laid out as A32 is. -/
def layout (iset : InstrSet) (w : Word) : List Byte :=
  match iset with
  | .t32 => [w.extractLsb' 16 8, w.extractLsb' 24 8, w.extractLsb' 0 8, w.extractLsb' 8 8]
  | .a32 => [w.extractLsb' 0 8, w.extractLsb' 8 8, w.extractLsb' 16 8, w.extractLsb' 24 8]
  | .a64 => [w.extractLsb' 0 8, w.extractLsb' 8 8, w.extractLsb' 16 8, w.extractLsb' 24 8]

/-- The instruction word that four bytes hold (30_encoding.md R74), numbered as the diagrams number
it: in T32 `hw1` is bits 31:16. -/
def wordOfBytes (iset : InstrSet) (b0 b1 b2 b3 : Byte) : Word :=
  match iset with
  | .t32 => b1 ++ b0 ++ b3 ++ b2
  | .a32 => b3 ++ b2 ++ b1 ++ b0
  | .a64 => b3 ++ b2 ++ b1 ++ b0

/-- Why a decoder answers no instruction. -/
inductive DecodeReject
  /-- Fewer than the four bytes every SRS encoding has (30_encoding.md R70). -/
  | tooShort
  /-- The word is not an SRS encoding of this instruction set (30_encoding.md R76). -/
  | notSRS (word : Word)
deriving DecidableEq, Repr

/-- Read one instruction from bytes, with the bytes that follow it. -/
def decode (iset : InstrSet) (bytes : List Byte) : Except DecodeReject (Instr × List Byte) :=
  match bytes with
  | b0 :: b1 :: b2 :: b3 :: rest =>
    match decodeWord iset (wordOfBytes iset b0 b1 b2 b3) with
    | some i => .ok (i, rest)
    | none => .error (.notSRS (wordOfBytes iset b0 b1 b2 b3))
  | _ => .error .tooShort

/-- The word of an instruction (30_encoding.md R71 to R73): bits 31:22, W, L = 0, the should-be
bits and the mode number. -/
def Instr.encodeWord (i : Instr) : Word :=
  i.encoding.top ++ BitVec.ofBool i.W ++ 0#1 ++ i.sb ++ i.mode

/-- The bytes of an instruction, at rising addresses (30_encoding.md R74). -/
def encode (i : Instr) : List Byte :=
  layout i.iset i.encodeWord

/-- The instruction set in which a word is an SRS encoding. No word is one in both
(30_encoding.md R80). -/
def isetOfWord (w : Word) : Option InstrSet :=
  if (decodeWord .a32 w).isSome then some .a32
  else if (decodeWord .t32 w).isSome then some .t32
  else none

/-- The word of the opcode table's bits: every bit above `nbits` is zero. -/
def tableWord (nbits w : Nat) : Word :=
  BitVec.ofNat 32 (w % 2 ^ nbits)

/-- The instruction this decoder reads from a word numbered as spec/opcode_table.json numbers it: the
word is laid out in bytes as its instruction set stores it and decoded there (log entry 10). -/
def decodeTableWord (nbits w : Nat) : Option Instr :=
  match isetOfWord (tableWord nbits w) with
  | none => none
  | some iset =>
    match decode iset (layout iset (tableWord nbits w)) with
    | .ok (i, _) => some i
    | .error _ => none

/-- The encoding a mnemonic names in an instruction set (30_encoding.md R82, R83, R88), if that set
has one: T32 has no SRSDA and no SRSIB. -/
def AsmMnemonic.encoding (iset : InstrSet) (m : AsmMnemonic) : Option Encoding :=
  match iset, m with
  | .a32, .srsda => some .srsdaA1
  | .a32, .srsed => some .srsdaA1
  | .a32, .srsdb => some .srsdbA1
  | .a32, .srsfd => some .srsdbA1
  | .a32, .srsia => some .srsiaA1
  | .a32, .srs => some .srsiaA1
  | .a32, .srsea => some .srsiaA1
  | .a32, .srsib => some .srsibA1
  | .a32, .srsfa => some .srsibA1
  | .t32, .srsdb => some .srsT1
  | .t32, .srsfd => some .srsT1
  | .t32, .srsia => some .srsT2
  | .t32, .srs => some .srsT2
  | .t32, .srsea => some .srsT2
  | .t32, .srsda => none
  | .t32, .srsed => none
  | .t32, .srsib => none
  | .t32, .srsfa => none
  | .a64, _ => none

/-- `<c>`: for A1 "must be AL or omitted"; for T1 and T2 any condition, which is no part of the
encoding (30_encoding.md R84). -/
def condAccepted (iset : InstrSet) (c : Option AsmCond) : Bool :=
  match iset, c with
  | .t32, _ => true
  | _, some .conditional => false
  | _, some .al => true
  | _, none => true

/-- `<q>`: `.W` or nothing; `.N` cannot be satisfied (30_encoding.md R85). -/
def widthAccepted (q : Option AsmWidth) : Bool :=
  match q with
  | some .narrow => false
  | some .wide => true
  | none => true

/-- Assemble one line (30_encoding.md R82 to R88): `!` is W (R86), the mode number goes unchanged
into bits 4:0 and must fit there (R87), and every should-be bit is as shown (R75). -/
def assemble (iset : InstrSet) (l : AsmLine) : Option Instr :=
  match l.mnemonic.encoding iset with
  | none => none
  | some e =>
    if condAccepted iset l.cond && widthAccepted l.width && decide (l.mode < 32) then
      some (e.instr l.bang e.shouldBe (BitVec.ofNat 5 l.mode))
    else none

/-- The mnemonic this spec prints for an encoding (30_encoding.md R82, R88). -/
def Encoding.mnemonic : Encoding → AsmMnemonic
  | .srsdaA1 => .srsda
  | .srsdbA1 => .srsdb
  | .srsiaA1 => .srsia
  | .srsibA1 => .srsib
  | .srsT1 => .srsdb
  | .srsT2 => .srsia

/-- The line of syntax of an instruction, for one whose should-be bits are as shown. -/
def disassemble (i : Instr) : AsmLine :=
  { mnemonic := i.encoding.mnemonic, cond := none, width := none, bang := i.W, mode := i.mode.toNat }

end Sys2Proof
end

