-- ==== Sys2Proof/Config.lean ====
section
/-! DEFINITION. What the source leaves to the implementation (00_scope.md R5, 92_eei_decisions.md,
"Parameters left OPEN") as plain data, and the free values. A `Config` is a field of State that no
step changes, so a statement about every state is a statement about every configuration
(log entry 1). The free values are opaque: nothing can evaluate them (log entry 7). -/

namespace Sys2Proof

/-- How an implementation resolves CONSTRAINED UNPREDICTABLE case 1, 2 or 3 (40_srs.md R113).
`keep` is R113's policy that reports the case as the fault `Unpredictable(k)`; `undef` and `nop` are
the two behaviours the source permits. -/
inductive CuChoice
  | keep
  | undef
  | nop
deriving DecidableEq, Repr

/-- How an implementation resolves case 4, `BadMode(mode)` (40_srs.md R113): `keep` as above, then
the four behaviours the source permits. -/
inductive CuBadModeChoice
  | keep
  | undef
  | nop
  | ownStack
  | unknownStore
deriving DecidableEq, Repr

/-- Which of the nine modes of 10_state.md R22 the implementation has (10_state.md R31 (c)). No
other value can be said to be implemented, which is constraint (a) of R31. -/
structure ModeSet where
  usr : Bool
  fiq : Bool
  irq : Bool
  svc : Bool
  mon : Bool
  abt : Bool
  hyp : Bool
  und : Bool
  sys : Bool
deriving DecidableEq, Repr

/-- Accesses that are not admitted: those of `size` bytes with privilege `priv` at an address from
`first` to `last`. A list of these is `mem_admit` (20_memory.md R55) written as data (log entry 1). -/
structure DenyRule where
  first : Word
  last : Word
  size : Nat
  priv : Bool
deriving DecidableEq, Repr

/-- The configuration (00_scope.md R5), constant during a run (10_state.md R30, R37). -/
structure Config where
  /-- `HaveEL(EL3)` (10_state.md R30). -/
  haveEL3 : Bool
  /-- `ELUsingAArch32(EL3)`, read only when `haveEL3` (10_state.md R30). -/
  el3AArch32 : Bool
  /-- The modes that are implemented (10_state.md R31). -/
  modes : ModeSet
  /-- Byte order of the two stores (20_memory.md R52). -/
  bigEndian : Bool
  /-- The accesses that `mem_admit` refuses (20_memory.md R55). -/
  memDeny : List DenyRule
  /-- `cu_choice(1)`: executed in User or System mode (40_srs.md R113). -/
  cu1 : CuChoice
  /-- `cu_choice(2)`: the specified mode is Hyp (40_srs.md R113). -/
  cu2 : CuChoice
  /-- `cu_choice(3)`: the specified mode is Monitor and may not be used (40_srs.md R113). -/
  cu3 : CuChoice
  /-- `cu_choice(4)`: `BadMode(mode)` (40_srs.md R113). -/
  cu4 : CuBadModeChoice
deriving DecidableEq, Repr

/-- The n-th UNKNOWN byte (00_scope.md R10, 92_eei_decisions.md D21): a free value. -/
opaque Config.freeByte : Nat → Byte

/-- The n-th UNKNOWN word (00_scope.md R10, 92_eei_decisions.md D21): a free value. -/
opaque Config.freeWord : Nat → Word

end Sys2Proof
end

