-- ==== Sys2Proof/Machine/State.lean ====
section
/-! DEFINITION. The state of AArch32 SRS (10_state.md), the reasons a step can stop
(60_exceptions.md R140) and the state after reset (10_state.md R37, log entries 2 to 8). -/

namespace Sys2Proof.Machine

/-- "enumeration SecurityState" (10_state.md R29). -/
inductive SecurityState
  | nonSecure
  | root
  | realm
  | secure
deriving DecidableEq, Repr

/-- The nine PE modes (10_state.md R22). -/
inductive Mode
  | usr
  | fiq
  | irq
  | svc
  | mon
  | abt
  | hyp
  | und
  | sys
deriving DecidableEq, Repr

/-- The banks of register 13, the stack pointer (10_state.md R22, R23). -/
structure SpBanks where
  usr : Word
  fiq : Word
  irq : Word
  svc : Word
  mon : Word
  abt : Word
  hyp : Word
  und : Word
deriving DecidableEq, Repr

/-- The banks of register 14, the link register (10_state.md R22, R24). -/
structure LrBanks where
  usr : Word
  fiq : Word
  irq : Word
  svc : Word
  mon : Word
  abt : Word
  und : Word
deriving DecidableEq, Repr

/-- The Saved Program Status Registers, opaque words (10_state.md R22, R25). -/
structure SpsrBanks where
  fiq : Word
  irq : Word
  svc : Word
  mon : Word
  abt : Word
  hyp : Word
  und : Word
deriving DecidableEq, Repr

/-- Data memory (10_state.md R36): address and byte pairs in canonical form. -/
abbrev Memory := List Host.Cell

/-- What an address with no entry reads as (log entry 6: DESIGN CHOICE, unsafe). -/
def unlistedByte : Byte := 0#8

/-- The canonical form: addresses strictly rising and below 2^32, no entry equal to what an unlisted
address reads as. -/
abbrev Memory.wf (m : Memory) : Prop :=
  m.Pairwise (fun p q => p.1 < q.1) ∧ ∀ p ∈ m, p.2 ≠ unlistedByte ∧ p.1 < 2 ^ 32

/-- The program text of the run (20_memory.md R63, 70_reset_and_hazards.md R174): the byte image
(30_encoding.md R74) of its instruction words, from address `base` up. It is no part of `mem`. -/
structure Program where
  base : Word
  bytes : List Byte
deriving DecidableEq, Repr

/-- Everything the spec gives the machine (10_state.md R37), its configuration (00_scope.md R5) and
the inputs of the steps to come (40_srs.md R101). -/
structure State where
  /-- `PSTATE.M` (10_state.md R20). -/
  M : BitVec 5
  /-- `PSTATE.EL` (10_state.md R21). -/
  EL : BitVec 2
  /-- `CurrentSecurityState()` (10_state.md R29). -/
  ss : SecurityState
  /-- `CurrentInstrSet()` (10_state.md R28). -/
  iset : InstrSet
  /-- R0 to R12 (10_state.md R26). -/
  r : Vector Word 13
  /-- SP_usr, ..., SP_und (10_state.md R23). -/
  sp : SpBanks
  /-- LR_usr, ..., LR_und (10_state.md R24). -/
  lr : LrBanks
  /-- SPSR_fiq, ..., SPSR_und (10_state.md R25). -/
  spsr : SpsrBanks
  /-- The address of the instruction being executed (10_state.md R27). -/
  pc : Word
  /-- Data memory (10_state.md R36). -/
  mem : Memory
  /-- The program text (20_memory.md R63). -/
  program : Program
  /-- `ConditionPassed()` for the T32 steps to come, oldest first (40_srs.md R101, log entry 8). -/
  condInputs : List Bool
  /-- The implementation's parameters (00_scope.md R5, log entry 1). -/
  cfg : Config
  /-- The MODEL's own field: how many free values have been used (log entry 7). -/
  draws : Nat
deriving DecidableEq, Repr

/-- The cases of CONSTRAINED UNPREDICTABLE behaviour: the source's four (40_srs.md R113) and case 0,
the should-be bits (30_encoding.md R75). -/
inductive CuCase
  /-- Case 0: a should-be bit differs from the value shown. -/
  | shouldBe
  /-- Case 1: executed in User or System mode. -/
  | userOrSystem
  /-- Case 2: the specified mode is Hyp. -/
  | hypMode
  /-- Case 3: the specified mode is Monitor, without EL3 or not in Secure state. -/
  | monitorMode
  /-- Case 4: `BadMode(mode)`. -/
  | badMode
deriving DecidableEq, Repr

/-- The raises of 60_exceptions.md R140, each with the values it says are recorded. Every one ends
the run (60_exceptions.md R148). -/
inductive Fault
  /-- `Undefined` (R141): raised at EL2 (`case` is none), or by a CONSTRAINED UNPREDICTABLE case that
  the configuration resolves as UNDEF. `pc` is the SRS instruction. Safe: the hardware goes on to a
  handler the source does not describe. -/
  | undefined (pc : Word) (case : Option CuCase)
  /-- `Unpredictable(k)` kept as a fault (R142, R113): case 0 always, cases 1 to 4 where the
  configuration says `keep`. Safe: the hardware may go on in one of several ways. -/
  | unpredictable (pc : Word) (case : CuCase)
  /-- `MonitorModeTrap` (R143): raised where Monitor mode is specified from Secure state and EL3 uses
  AArch64. Safe: the hardware goes on at EL3, which the source does not describe. -/
  | monitorModeTrap (pc : Word)
  /-- `AlignmentFault` (R144): raised by a store whose address is not a multiple of 4. Safe: the
  hardware goes on to a handler the source does not describe. -/
  | alignmentFault (pc : Word) (address : Word)
  /-- `DataAbort` (R145): raised by a store that is not admitted. `address` is the failing address and
  `after` the state it leaves, whose 8 target bytes are free values (20_memory.md R55). Safe. -/
  | dataAbort (pc : Word) (address : Word) (after : State)
deriving DecidableEq, Repr

/-- The refusals: inputs outside the model (00_scope.md R11, 60_exceptions.md R140), and the two
ways a state has no instruction to run (70_reset_and_hazards.md R174, log entry 9). -/
inductive Refusal
  /-- An instruction that has no meaning yet; no arm of `exec` answers it. Safe. -/
  | notModelled (mnemonic : String)
  /-- `NotSRS` (30_encoding.md R76): raised by the step for a word that is no SRS encoding of the
  current instruction set. Safe. -/
  | notSRS (pc : Word) (word : Word)
  /-- `BadCurrentMode` (10_state.md R34): raised by every SRS where `M` has no LR and SPSR meaning.
  Safe. -/
  | badCurrentMode (pc : Word) (M : BitVec 5)
  /-- `StoreToProgram` (20_memory.md R63): raised by a store whose 8 bytes overlap the program. Safe. -/
  | storeToProgram (pc : Word) (address : Word)
  /-- The run has ended normally: `pc` is just past the program (70_reset_and_hazards.md R174).
  Raised by the step. Safe. -/
  | runEnded (pc : Word)
  /-- `pc` is at no instruction of the program (70_reset_and_hazards.md R174). Raised by the step.
  Safe. -/
  | outsideProgram (pc : Word)
deriving DecidableEq, Repr

/-- The result of executing one instruction. -/
abbrev Result := Host.Outcome State Fault Refusal

/-- The configuration at reset: the defaults of 92_eei_decisions.md, and NOP for the four CONSTRAINED
UNPREDICTABLE cases (log entry 5: DESIGN CHOICE, unsafe). -/
def Config.reset : Config :=
  { haveEL3 := false
    el3AArch32 := true
    modes := { usr := true, fiq := true, irq := true, svc := true, mon := false, abt := true,
               hyp := false, und := true, sys := true }
    bigEndian := false
    memDeny := []
    cu1 := .nop
    cu2 := .nop
    cu3 := .nop
    cu4 := .nop }

/-- The launch state of a run with nothing placed (70_reset_and_hazards.md R170). The source states no
reset value; every value here is the model's (log entries 2 to 8). -/
def State.reset : State :=
  { M := 0b10011#5
    EL := 0b01#2
    ss := .nonSecure
    iset := .a32
    r := Vector.replicate 13 0#32
    sp := { usr := 0#32, fiq := 0#32, irq := 0#32, svc := 0#32, mon := 0#32, abt := 0#32,
            hyp := 0#32, und := 0#32 }
    lr := { usr := 0#32, fiq := 0#32, irq := 0#32, svc := 0#32, mon := 0#32, abt := 0#32,
            und := 0#32 }
    spsr := { fiq := 0#32, irq := 0#32, svc := 0#32, mon := 0#32, abt := 0#32, hyp := 0#32,
              und := 0#32 }
    pc := 0x00001000#32
    mem := []
    program := { base := 0x00001000#32, bytes := [] }
    condInputs := []
    cfg := Config.reset
    draws := 0 }

end Sys2Proof.Machine
end

