-- ==== Sys2Proof/Machine/Ops.lean ====
section
/-! DEFINITION. The shared operations over modes, registers, memory and the program, the raises
(60_exceptions.md) and the completion of a step. The spec describes no exception entry and no
return (60_exceptions.md R148, R149): a raise ends the run in a named fault. -/

namespace Sys2Proof.Machine

/-! ### Modes, levels and configuration -/

/-- The mode numbers (10_state.md R22, 00_scope.md R9). -/
def Mode.num : Mode → BitVec 5
  | .usr => 0b10000#5
  | .fiq => 0b10001#5
  | .irq => 0b10010#5
  | .svc => 0b10011#5
  | .mon => 0b10110#5
  | .abt => 0b10111#5
  | .hyp => 0b11010#5
  | .und => 0b11011#5
  | .sys => 0b11111#5

/-- The nine modes, in the order of 10_state.md R22. -/
def Mode.all : List Mode :=
  [.usr, .fiq, .irq, .svc, .mon, .abt, .hyp, .und, .sys]

/-- The mode of a number, if the number is one of the nine; the other 23 values are "a mode that
Table G1-5 does not show" (10_state.md R22). -/
def Mode.ofNum (m : BitVec 5) : Option Mode :=
  Mode.all.find? fun k => k.num == m

/-- "constant bits(2) EL2 = '10'" (00_scope.md R9). -/
def el2 : BitVec 2 := 0b10#2

/-- "constant bits(2) EL3 = '11'" (00_scope.md R9). -/
def el3 : BitVec 2 := 0b11#2

/-- The implementation has the mode, before constraint (b) of 10_state.md R31. -/
def hasMode (ms : ModeSet) : Mode → Bool
  | .usr => ms.usr
  | .fiq => ms.fiq
  | .irq => ms.irq
  | .svc => ms.svc
  | .mon => ms.mon
  | .abt => ms.abt
  | .hyp => ms.hyp
  | .und => ms.und
  | .sys => ms.sys

/-- `implemented(m)` (10_state.md R31): FALSE on the 23 values that are not modes, and for Monitor
only where EL3 exists and uses AArch32. -/
def implemented (cfg : Config) (m : BitVec 5) : Bool :=
  match Mode.ofNum m with
  | none => false
  | some .mon => cfg.modes.mon && cfg.haveEL3 && cfg.el3AArch32
  | some k => hasMode cfg.modes k

/-- `BadMode(m)` (10_state.md R31). -/
def badMode (cfg : Config) (m : BitVec 5) : Bool :=
  !implemented cfg m

/-- A rule refuses this access. -/
def denies (d : DenyRule) (address : Word) (size : Nat) (priv : Bool) : Bool :=
  decide (d.first ≤ address) && decide (address ≤ d.last) && d.size == size && d.priv == priv

/-- `mem_admit(addr, size, priv)` (20_memory.md R55). -/
def memAdmit (cfg : Config) (address : Word) (size : Nat) (priv : Bool) : Bool :=
  !cfg.memDeny.any fun d => denies d address size priv

/-! ### Banked registers -/

/-- `R[13, m]` (10_state.md R23): User and System share `SP_usr`. -/
def readSP (s : State) : Mode → Word
  | .usr => s.sp.usr
  | .fiq => s.sp.fiq
  | .irq => s.sp.irq
  | .svc => s.sp.svc
  | .mon => s.sp.mon
  | .abt => s.sp.abt
  | .hyp => s.sp.hyp
  | .und => s.sp.und
  | .sys => s.sp.usr

/-- The stack pointers after `R[13, m] <- v` (10_state.md R23). -/
def setSpBank (b : SpBanks) (m : Mode) (v : Word) : SpBanks :=
  match m with
  | .usr => { b with usr := v }
  | .fiq => { b with fiq := v }
  | .irq => { b with irq := v }
  | .svc => { b with svc := v }
  | .mon => { b with mon := v }
  | .abt => { b with abt := v }
  | .hyp => { b with hyp := v }
  | .und => { b with und := v }
  | .sys => { b with usr := v }

/-- `R[13, m] <- v` (10_state.md R23). -/
def writeSP (s : State) (m : Mode) (v : Word) : State :=
  { s with sp := setSpBank s.sp m v }

/-- `LR` as seen from mode `m`, `R[14, m]` (10_state.md R24): User, System and Hyp share `LR_usr`. -/
def readLR (s : State) : Mode → Word
  | .usr => s.lr.usr
  | .fiq => s.lr.fiq
  | .irq => s.lr.irq
  | .svc => s.lr.svc
  | .mon => s.lr.mon
  | .abt => s.lr.abt
  | .hyp => s.lr.usr
  | .und => s.lr.und
  | .sys => s.lr.usr

/-- `SPSR[]` as seen from mode `m` (10_state.md R25): User and System have none. -/
def readSPSR (s : State) : Mode → Option Word
  | .usr => none
  | .fiq => some s.spsr.fiq
  | .irq => some s.spsr.irq
  | .svc => some s.spsr.svc
  | .mon => some s.spsr.mon
  | .abt => some s.spsr.abt
  | .hyp => some s.spsr.hyp
  | .und => some s.spsr.und
  | .sys => none

/-! ### Memory -/

/-- The byte at an address. -/
def memGet (m : Memory) (a : Nat) : Byte :=
  match m with
  | [] => unlistedByte
  | (k, v) :: rest => if k = a then v else memGet rest a

/-- Memory without an entry for an address. -/
def memErase (m : Memory) (a : Nat) : Memory :=
  match m with
  | [] => []
  | (k, v) :: rest => if k = a then memErase rest a else (k, v) :: memErase rest a

/-- Memory with an entry put in at its place. -/
def memInsert (m : Memory) (a : Nat) (b : Byte) : Memory :=
  match m with
  | [] => [(a, b)]
  | (k, v) :: rest => if a < k then (a, b) :: (k, v) :: rest else (k, v) :: memInsert rest a b

/-- Memory after one byte is written, in canonical form. -/
def memSet (m : Memory) (a : Nat) (b : Byte) : Memory :=
  if b = unlistedByte then memErase m a else memInsert (memErase m a) a b

/-- The byte of data memory at a 32-bit address (20_memory.md R50). -/
def readByte (s : State) (a : Word) : Byte :=
  memGet s.mem a.toNat

/-- Memory after consecutive bytes are written from an address up, addresses modulo 2^32
(20_memory.md R60). -/
def storeBytes (m : Memory) (a : Word) (bs : List Byte) : Memory :=
  match bs with
  | [] => m
  | b :: rest => storeBytes (memSet m a.toNat b) (a + 1#32) rest

/-- The four bytes of a word at addr, addr+1, addr+2, addr+3 (20_memory.md R52). -/
def wordBytes (bigEndian : Bool) (v : Word) : List Byte :=
  if bigEndian then
    [v.extractLsb' 24 8, v.extractLsb' 16 8, v.extractLsb' 8 8, v.extractLsb' 0 8]
  else
    [v.extractLsb' 0 8, v.extractLsb' 8 8, v.extractLsb' 16 8, v.extractLsb' 24 8]

/-- Memory after step (3) of `MemWrite(addr, 4, v)` (20_memory.md R51). -/
def storeWord (cfg : Config) (m : Memory) (a : Word) (v : Word) : Memory :=
  storeBytes m a (wordBytes cfg.bigEndian v)

/-- Data memory replaced. -/
def setMem (s : State) (m : Memory) : State :=
  { s with mem := m }

/-- `addr[1:0] = '00'` (20_memory.md R53). -/
def aligned4 (a : Word) : Bool :=
  a.extractLsb' 0 2 == 0#2

/-- An address is one of the program's bytes (20_memory.md R63). -/
def inProgram (p : Program) (a : Word) : Bool :=
  decide ((a - p.base).toNat < p.bytes.length)

/-- Some byte of `[address, address+7]` is one of the program's (20_memory.md R63). -/
def overlapsProgram (p : Program) (address : Word) : Bool :=
  (List.range 8).any fun k => inProgram p (address + BitVec.ofNat 32 k)

/-! ### Free values -/

/-- The next `n` UNKNOWN bytes (00_scope.md R10, log entry 7). -/
def drawBytes (s : State) (n : Nat) : List Byte :=
  (List.range n).map fun k => Config.freeByte (s.draws + k)

/-- `n` more free values are used. -/
def useDraws (s : State) (n : Nat) : State :=
  { s with draws := s.draws + n }

/-- The state a `DataAbort` carries (20_memory.md R55): the 8 target bytes are free values. -/
def abortState (s : State) (address : Word) : State :=
  useDraws (setMem s (storeBytes s.mem address (drawBytes s 8))) 8

/-- The lowest Exception level from which a bank named by a mode can be accessed, read off
10_state.md R22's Exception-level column (log entry 12). -/
def bankLevel : Mode → Nat
  | .usr => 0
  | .sys => 0
  | .fiq => 1
  | .irq => 1
  | .svc => 1
  | .abt => 1
  | .und => 1
  | .hyp => 2
  | .mon => 3

/-- A general-purpose register of a bank "can be accessed from the current Exception level without a
privilege violation" (40_srs.md R106, log entry 12). -/
def accessible (s : State) (bank : Mode) : Bool :=
  decide (bankLevel bank ≤ s.EL.toNat)

/-- The k-th free word if the bank is accessible, else the old value. -/
def drawIf (s : State) (bank : Mode) (k : Nat) (old : Word) : Word :=
  if accessible s bank then Config.freeWord (s.draws + k) else old

/-- Every general-purpose register that is accessible becomes UNKNOWN (40_srs.md R113,
UNKNOWN_STORE with writeback): R0 to R12, and the accessible banks of SP and LR. -/
def scrambleRegs (s : State) : State :=
  useDraws
    { s with
      r := Vector.ofFn fun k => Config.freeWord (s.draws + k.val)
      sp :=
        { usr := drawIf s .usr 13 s.sp.usr
          fiq := drawIf s .fiq 14 s.sp.fiq
          irq := drawIf s .irq 15 s.sp.irq
          svc := drawIf s .svc 16 s.sp.svc
          mon := drawIf s .mon 17 s.sp.mon
          abt := drawIf s .abt 18 s.sp.abt
          hyp := drawIf s .hyp 19 s.sp.hyp
          und := drawIf s .und 20 s.sp.und }
      lr :=
        { usr := drawIf s .usr 21 s.lr.usr
          fiq := drawIf s .fiq 22 s.lr.fiq
          irq := drawIf s .irq 23 s.lr.irq
          svc := drawIf s .svc 24 s.lr.svc
          mon := drawIf s .mon 25 s.lr.mon
          abt := drawIf s .abt 26 s.lr.abt
          und := drawIf s .und 27 s.lr.und } }
    28

/-! ### Outcomes -/

/-- Go on after a next state; a raise or refusal ends the instruction (00_scope.md R7). -/
def andThen (o : Result) (f : State → Result) : Result :=
  match o with
  | .next s => f s
  | .fault e => .fault e
  | .refused e => .refused e

/-- `raise Undefined()` (60_exceptions.md R141): terminal, recording the instruction's address and,
where it resolves a CONSTRAINED UNPREDICTABLE case, that case (60_exceptions.md R140). -/
def raiseUndefined (s : State) (case : Option CuCase) : Result :=
  .fault (.undefined s.pc case)

/-- `raise Unpredictable(k)` kept as a fault (60_exceptions.md R142). -/
def raiseUnpredictable (s : State) (case : CuCase) : Result :=
  .fault (.unpredictable s.pc case)

/-- `raise MonitorModeTrap()` (60_exceptions.md R143). -/
def raiseMonitorModeTrap (s : State) : Result :=
  .fault (.monitorModeTrap s.pc)

/-- `raise AlignmentFault(address)` (60_exceptions.md R144). -/
def raiseAlignmentFault (s : State) (address : Word) : Result :=
  .fault (.alignmentFault s.pc address)

/-- `raise DataAbort(failing)` for the 8 bytes from `address` up (60_exceptions.md R145). -/
def raiseDataAbort (s : State) (address failing : Word) : Result :=
  .fault (.dataAbort s.pc failing (abortState s address))

/-- Refuse with `BadCurrentMode` (10_state.md R34). -/
def refuseBadCurrentMode (s : State) : Result :=
  .refused (.badCurrentMode s.pc s.M)

/-- Refuse with `StoreToProgram` (20_memory.md R63). -/
def refuseStoreToProgram (s : State) (address : Word) : Result :=
  .refused (.storeToProgram s.pc address)

/-! ### The two stores -/

/-- Memory after `MemWrite(address, 4, lrv); MemWrite(address + 4, 4, spsrv)` (40_srs.md R110). -/
def pairMem (s : State) (address lrv spsrv : Word) : Memory :=
  storeWord s.cfg (storeWord s.cfg s.mem address lrv) (address + 4#32) spsrv

/-- The two stores and the checks that come before either, after alignment: overlap with the program
(20_memory.md R63), then admission of the lower and of the upper word for a privileged write
(20_memory.md R55), in the order of 60_exceptions.md R147. -/
def storePair (s : State) (address lrv spsrv : Word) : Result :=
  if overlapsProgram s.program address then refuseStoreToProgram s address
  else if !memAdmit s.cfg address 4 true then raiseDataAbort s address address
  else if !memAdmit s.cfg (address + 4#32) 4 true then raiseDataAbort s address (address + 4#32)
  else .next (setMem s (pairMem s address lrv spsrv))

/-- The two stores with the alignment check before everything else (20_memory.md R51, R53). -/
def storePairAligned (s : State) (address lrv spsrv : Word) : Result :=
  if !aligned4 address then raiseAlignmentFault s address
  else storePair s address lrv spsrv

end Sys2Proof.Machine
end

