-- ==== Sys2Proof/Machine/Operands.lean ====
section
/-! DEFINITION. The decode variables of SRS (30_encoding.md R79) and what the Execute text computes
from them: the store address (40_srs.md R109) and the writeback value (40_srs.md R111). -/

namespace Sys2Proof.Machine

/-- The classes of encodings, A1 with its `P` and `U` bits (30_encoding.md R70, R78). -/
inductive EncClass
  | A1 (P U : Bool)
  | T1
  | T2
deriving DecidableEq, Repr

/-- The class of an encoding, with P and U for A1 (30_encoding.md R78). -/
def classOf : Encoding → EncClass
  | .srsdaA1 => .A1 false false
  | .srsdbA1 => .A1 true false
  | .srsiaA1 => .A1 false true
  | .srsibA1 => .A1 true true
  | .srsT1 => .T1
  | .srsT2 => .T2

/-- "wback", "increment" and "wordhigher" (30_encoding.md R79). -/
structure DecodeVars where
  wback : Bool
  increment : Bool
  wordhigher : Bool
deriving DecidableEq, Repr

/-- The Decode line of a class, which `EncodingSpecificOperations()` runs (30_encoding.md R79). -/
def decodeLine (c : EncClass) (W : Bool) : DecodeVars :=
  match c with
  | .A1 P U => { wback := W, increment := U, wordhigher := P == U }
  | .T1 => { wback := W, increment := false, wordhigher := false }
  | .T2 => { wback := W, increment := true, wordhigher := false }

/-- `address` (40_srs.md R109): where LR goes; SPSR goes 4 above. -/
def storeAddress (v : DecodeVars) (base : Word) : Word :=
  let address := if v.increment then base else base - 8#32
  if v.wordhigher then address + 4#32 else address

/-- The value written back to `R[13, mode]` (40_srs.md R111). -/
def writebackValue (v : DecodeVars) (base : Word) : Word :=
  if v.increment then base + 8#32 else base - 8#32

/-- Writeback: `R[13, m]` gets the new base if `wback` (40_srs.md R111). -/
def writeback (v : DecodeVars) (m : Mode) (base : Word) (s : State) : State :=
  if v.wback then writeSP s m (writebackValue v base) else s

end Sys2Proof.Machine
end

