-- ==== Sys2Proof/Machine/Flags.lean ====
section
/-! DEFINITION. SRS computes and writes no flag (10_state.md R32). What the spec gives in the place of
flags is the condition gate, `ConditionPassed()` (40_srs.md R101), and the completion of a step,
which moves past the instruction and its condition input. -/

namespace Sys2Proof.Machine

/-- `cond_passed` (40_srs.md R101): TRUE for A1; for T1 and T2 the step's input, TRUE where no input
is listed (log entry 8). -/
def condPassed (c : EncClass) (s : State) : Bool :=
  match c with
  | .A1 _ _ => true
  | .T1 => s.condInputs.headD true
  | .T2 => s.condInputs.headD true

/-- The condition inputs left after a step of this class completes (log entry 8). -/
def condInputsAfter (c : EncClass) (s : State) : List Bool :=
  match c with
  | .A1 _ _ => s.condInputs
  | .T1 => s.condInputs.tail
  | .T2 => s.condInputs.tail

/-- Completion: `pc <- pc + 4` (10_state.md R27), and the step's condition input is used. -/
def complete (c : EncClass) (s : State) : State :=
  { s with pc := s.pc + 4#32, condInputs := condInputsAfter c s }

end Sys2Proof.Machine
end

