-- ==== Sys2Proof/Machine/Srs.lean ====
section
/-! DEFINITION. The SRS instruction family (40_srs.md): the checks, the operation, the CONSTRAINED
UNPREDICTABLE behaviours, and one meaning per encoding. -/

namespace Sys2Proof.Machine

/-- What the checks of 40_srs.md R102 to R106 decide. -/
inductive CheckResult
  /-- `UNDEFINED` at EL2 (R102). -/
  | undefined
  /-- `UNPREDICTABLE`, with its case (R103 to R106). -/
  | unpredictable (case : CuCase)
  /-- `AArch64.MonitorModeTrap()` (R105). -/
  | monitorModeTrap
  /-- Go on at R108 with the SP of this mode. -/
  | proceed (target : Mode)
deriving DecidableEq, Repr

/-- The check on Monitor as the specified mode (40_srs.md R105). -/
def checkMonitor (s : State) : CheckResult :=
  if !s.cfg.haveEL3 || s.ss != .secure then .unpredictable .monitorMode
  else if !s.cfg.el3AArch32 then .monitorModeTrap
  else .proceed .mon

/-- The checks in order (40_srs.md R107): EL2, then the mode the PE is in, then the specified mode.
`BadMode` is consulted only for a specified mode other than Hyp and Monitor. -/
def srsCheck (s : State) (cur : Mode) (mode : BitVec 5) : CheckResult :=
  if s.EL = el2 then .undefined
  else if cur = .usr ∨ cur = .sys then .unpredictable .userOrSystem
  else
    match Mode.ofNum mode with
    | some .hyp => .unpredictable .hypMode
    | some .mon => checkMonitor s
    | some m => if badMode s.cfg mode then .unpredictable .badMode else .proceed m
    | none => .unpredictable .badMode

/-- The operation proper (40_srs.md R108 to R111): the base is the SP of `target`, the words stored
are LR and SPSR of the current mode `cur`, both stores come before the writeback. The checks let no
mode without an SPSR come here; such a mode would be refused as R34 says. -/
def srsBody (c : EncClass) (v : DecodeVars) (cur target : Mode) (s : State) : Result :=
  match readSPSR s cur with
  | none => refuseBadCurrentMode s
  | some spsrv =>
    andThen (storePairAligned s (storeAddress v (readSP s target)) (readLR s cur) spsrv) fun s' =>
      .next (complete c (writeback v target (readSP s target) s'))

/-- UNKNOWN_STORE (40_srs.md R113): LR and SPSR go to a free address, and with writeback every
accessible general-purpose register becomes a free value. The store may not touch the program
(20_memory.md R63) and must be admitted (60_exceptions.md R142: no permitted behaviour is a security
hole); the address is otherwise unconstrained (log entry 12). -/
def srsUnknownStore (c : EncClass) (v : DecodeVars) (cur : Mode) (s : State) : Result :=
  match readSPSR s cur with
  | none => refuseBadCurrentMode s
  | some spsrv =>
    andThen (storePair (useDraws s 1) (Config.freeWord s.draws) (readLR s cur) spsrv) fun s' =>
      .next (complete c (if v.wback then scrambleRegs s' else s'))

/-- `raise Unpredictable(k)` for k = 1, 2 or 3, resolved (40_srs.md R113). -/
def resolveCu (c : EncClass) (choice : CuChoice) (case : CuCase) (s : State) : Result :=
  match choice with
  | .keep => raiseUnpredictable s case
  | .undef => raiseUndefined s (some case)
  | .nop => .next (complete c s)

/-- `raise Unpredictable(4)`, resolved (40_srs.md R113). OWN_STACK goes on at R108 with the current
mode in place of the specified one. -/
def resolveBadMode (c : EncClass) (v : DecodeVars) (cur : Mode) (s : State) : Result :=
  match s.cfg.cu4 with
  | .keep => raiseUnpredictable s .badMode
  | .undef => raiseUndefined s (some .badMode)
  | .nop => .next (complete c s)
  | .ownStack => srsBody c v cur cur s
  | .unknownStore => srsUnknownStore c v cur s

/-- `raise Unpredictable(k)`, resolved by `cu_choice(k)` (40_srs.md R113); case 0 is always a fault
(30_encoding.md R75). -/
def resolveUnpredictable (c : EncClass) (v : DecodeVars) (cur : Mode) (case : CuCase) (s : State) :
    Result :=
  match case with
  | .shouldBe => raiseUnpredictable s .shouldBe
  | .userOrSystem => resolveCu c s.cfg.cu1 .userOrSystem s
  | .hypMode => resolveCu c s.cfg.cu2 .hypMode s
  | .monitorMode => resolveCu c s.cfg.cu3 .monitorMode s
  | .badMode => resolveBadMode c v cur s

/-- What follows each answer of the checks (40_srs.md R115). -/
def srsAfterChecks (c : EncClass) (v : DecodeVars) (cur : Mode) (r : CheckResult) (s : State) :
    Result :=
  match r with
  | .undefined => raiseUndefined s none
  | .unpredictable case => resolveUnpredictable c v cur case s
  | .monitorModeTrap => raiseMonitorModeTrap s
  | .proceed target => srsBody c v cur target s

/-- The current mode, where `LR` and `SPSR[]` can have a meaning (10_state.md R34): one of the nine
modes, and Hyp only at EL2. -/
def currentMode (s : State) : Option Mode :=
  match Mode.ofNum s.M with
  | none => none
  | some .hyp => if s.EL = el2 then some .hyp else none
  | some m => some m

/-- The complete step of a decoded SRS (40_srs.md R115). -/
def srs (e : Encoding) (W : Bool) (sb : BitVec 15) (mode : BitVec 5) (s : State) : Result :=
  match currentMode s with
  | none => refuseBadCurrentMode s
  | some cur =>
    if sb ≠ e.shouldBe then
      resolveUnpredictable (classOf e) (decodeLine (classOf e) W) cur .shouldBe s
    else if !condPassed (classOf e) s then .next (complete (classOf e) s)
    else srsAfterChecks (classOf e) (decodeLine (classOf e) W) cur (srsCheck s cur mode) s

/-- SRSDA, encoding A1 (40_srs.md R116). -/
def execSrsdaA1 (W : Bool) (sb : BitVec 15) (mode : BitVec 5) (s : State) : Result :=
  srs .srsdaA1 W sb mode s

/-- SRSDB, encoding A1 (40_srs.md R117). -/
def execSrsdbA1 (W : Bool) (sb : BitVec 15) (mode : BitVec 5) (s : State) : Result :=
  srs .srsdbA1 W sb mode s

/-- SRSIA, encoding A1 (40_srs.md R118). -/
def execSrsiaA1 (W : Bool) (sb : BitVec 15) (mode : BitVec 5) (s : State) : Result :=
  srs .srsiaA1 W sb mode s

/-- SRSIB, encoding A1 (40_srs.md R119). -/
def execSrsibA1 (W : Bool) (sb : BitVec 15) (mode : BitVec 5) (s : State) : Result :=
  srs .srsibA1 W sb mode s

/-- SRSDB, encoding T1 (40_srs.md R120). -/
def execSrsdbT1 (W : Bool) (sb : BitVec 15) (mode : BitVec 5) (s : State) : Result :=
  srs .srsT1 W sb mode s

/-- SRSIA, encoding T2 (40_srs.md R121). -/
def execSrsiaT2 (W : Bool) (sb : BitVec 15) (mode : BitVec 5) (s : State) : Result :=
  srs .srsT2 W sb mode s

end Sys2Proof.Machine
end

