-- ==== Sys2Proof/Machine/Dispatch.lean ====
section
/-! DEFINITION. One arm per constructor of Instr (spec/opcode_table.json). -/

namespace Sys2Proof.Machine

def exec (i : Instr) (s : State) : Host.Outcome State Fault Refusal :=
  match i with
  | .srsdaA1 W sb mode => Sys2Proof.Machine.execSrsdaA1 W sb mode s
  | .srsdbA1 W sb mode => Sys2Proof.Machine.execSrsdbA1 W sb mode s
  | .srsiaA1 W sb mode => Sys2Proof.Machine.execSrsiaA1 W sb mode s
  | .srsibA1 W sb mode => Sys2Proof.Machine.execSrsibA1 W sb mode s
  | .srsdbT1 W sb mode => Sys2Proof.Machine.execSrsdbT1 W sb mode s
  | .srsiaT2 W sb mode => Sys2Proof.Machine.execSrsiaT2 W sb mode s

end Sys2Proof.Machine
end

