-- ==== Sys2Proof/Machine/Fetch.lean ====
section
/-! DEFINITION. Fetching an instruction's bytes from the program text (20_memory.md R63,
30_encoding.md R74, 70_reset_and_hazards.md R174), and placing a program there. -/

namespace Sys2Proof.Machine

/-- What stands at `pc` in the program text. -/
inductive FetchResult
  /-- `pc` is just past the last instruction: the run has ended (70_reset_and_hazards.md R174). -/
  | ended
  /-- `pc` is at no instruction of the program. -/
  | outside
  /-- The program's bytes from an instruction's first byte on. -/
  | bytes (bs : List Byte)
deriving DecidableEq, Repr

/-- How far `pc` is into the program, modulo 2^32. -/
def programOffset (s : State) : Nat :=
  (s.pc - s.program.base).toNat

/-- The bytes of the next instruction: the instructions stand at p, p+4, ..., p+4(n-1)
(70_reset_and_hazards.md R174). -/
def fetch (s : State) : FetchResult :=
  if programOffset s = s.program.bytes.length then .ended
  else if programOffset s % 4 = 0 ∧ programOffset s + 4 ≤ s.program.bytes.length then
    .bytes (s.program.bytes.drop (programOffset s))
  else .outside

/-- The instruction at `pc`, or the refusal that says why there is none (30_encoding.md R76,
70_reset_and_hazards.md R174). -/
def fetchInstr (s : State) : Except Refusal Instr :=
  match fetch s with
  | .ended => .error (.runEnded s.pc)
  | .outside => .error (.outsideProgram s.pc)
  | .bytes bs =>
    match decode s.iset bs with
    | .ok (i, _) => .ok i
    | .error (.notSRS w) => .error (.notSRS s.pc w)
    | .error .tooShort => .error (.outsideProgram s.pc)

/-- The one-instruction program of a word, in the instruction set in which it is an SRS encoding. -/
def placeWord (s : State) (w : Word) : State :=
  let iset := (isetOfWord w).getD s.iset
  { s with iset := iset, program := { base := s.pc, bytes := layout iset w } }

end Sys2Proof.Machine
end

