-- ==== Sys2Proof/Machine/Step.lean ====
section
/-! DEFINITION. One step of the agent (00_scope.md R11): fetch, decode, execute; and how the host
places an instruction. -/

namespace Sys2Proof.Machine

/-- One execution of one SRS instruction, from fetch to completion, raise or refusal
(00_scope.md R11). -/
def step (s : State) : Host.Outcome State Fault Refusal :=
  match fetchInstr s with
  | .ok i => exec i s
  | .error e => .refused e

/-- The state with the table's word as its program, at `pc` (log entry 4): it stands for the load of
a program from outside the machine (70_reset_and_hazards.md R174). -/
def State.withFetchWord (s : State) (nbits w : Nat) : State :=
  placeWord s (tableWord nbits w)

end Sys2Proof.Machine
end

