-- ==== Sys2Proof/WellFormed.lean ====
section
/-! DEFINITION. Well-formed instructions: the canonical encodings, "the only ones an assembler
produces" (30_encoding.md R75, R81). An instruction that is not well-formed still decodes and is
executed: it raises `Unpredictable(0)` (30_encoding.md R75). -/

namespace Sys2Proof

/-- Every should-be bit is as the diagram shows it (30_encoding.md R75). -/
def Instr.wf (i : Instr) : Bool :=
  i.sb == i.encoding.shouldBe

end Sys2Proof
end

