-- ==== Sys2Proof/Safety.lean ====
section
/-! DEFINITION. What claims speak in: which outcomes are completions, the preconditions under which an
SRS completes (70_reset_and_hazards.md R171), and the invariant of a run. -/

namespace Sys2Proof.Machine

/-- The step completes: the only safe outcome. A raise or refusal ends the run
(60_exceptions.md R148). -/
def completes (o : Result) : Prop :=
  ∃ t, o = .next t

/-- The next state of an outcome, if it has one. -/
def nextOf (o : Result) : Option State :=
  match o with
  | .next t => some t
  | .fault _ => none
  | .refused _ => none

/-- The raise of an outcome, if it is one. -/
def faultOf (o : Result) : Option Fault :=
  match o with
  | .next _ => none
  | .fault e => some e
  | .refused _ => none

/-- The refusal of an outcome, if it is one. -/
def refusalOf (o : Result) : Option Refusal :=
  match o with
  | .next _ => none
  | .fault _ => none
  | .refused e => some e

/-- The modes from which SRS can store a return state, class (c) of 60_exceptions.md R151. -/
abbrev savesReturnState (cur : Mode) : Prop :=
  cur = .fiq ∨ cur = .irq ∨ cur = .svc ∨ cur = .mon ∨ cur = .abt ∨ cur = .und

/-- The specified mode may be used: items 3 to 5 of 70_reset_and_hazards.md R171. -/
abbrev usableTarget (s : State) (target : Mode) : Prop :=
  target ≠ .hyp ∧
  (target = .mon → s.cfg.haveEL3 = true ∧ s.ss = .secure ∧ s.cfg.el3AArch32 = true) ∧
  (target ≠ .mon → implemented s.cfg target.num = true)

/-- The specified mode is case 4's: `BadMode` holds of it and it is neither Hyp nor Monitor
(40_srs.md R106). -/
abbrev isCaseFour (cfg : Config) (mode : BitVec 5) : Prop :=
  badMode cfg mode = true ∧ mode ≠ 0b11010#5 ∧ mode ≠ 0b10110#5

/-- The 8 bytes at `address` can be stored: item 6 of 70_reset_and_hazards.md R171. -/
abbrev storable (s : State) (address : Word) : Prop :=
  aligned4 address = true ∧ overlapsProgram s.program address = false ∧
  memAdmit s.cfg address 4 true = true ∧ memAdmit s.cfg (address + 4#32) 4 true = true

/-- Items 1 to 6 of 70_reset_and_hazards.md R171, for the current mode `cur`, the specified mode
`target` and the address LR goes to. -/
abbrev ready (s : State) (cur target : Mode) (address : Word) : Prop :=
  s.M = cur.num ∧ s.EL ≠ el2 ∧ savesReturnState cur ∧ usableTarget s target ∧ storable s address

/-- Two modes name one bank of register 13 (10_state.md R23). -/
def sameSpBank (m k : Mode) : Bool :=
  m == k || (m == .usr && k == .sys) || (m == .sys && k == .usr)

/-- The four bytes from an address up hold a word, in the configuration's byte order
(20_memory.md R52). -/
abbrev holdsWord (s : State) (a v : Word) : Prop :=
  ∀ k (hk : k < 4), readByte s (a + BitVec.ofNat 32 k) =
    (wordBytes s.cfg.bigEndian v)[k]'(by cases s.cfg.bigEndian <;> exact hk)

/-- An address is none of the 8 bytes from `address` up. -/
abbrev outside8 (address a : Word) : Prop :=
  ∀ k < 8, a ≠ address + BitVec.ofNat 32 k

/-- The address a raise records as that of the instruction (60_exceptions.md R140). -/
def faultPc : Fault → Word
  | .undefined pc _ => pc
  | .unpredictable pc _ => pc
  | .monitorModeTrap pc => pc
  | .alignmentFault pc _ => pc
  | .dataAbort pc _ _ => pc

/-- `el_consistent` (10_state.md R34). -/
abbrev elConsistent (s : State) : Prop :=
  (s.M = Mode.usr.num ↔ s.EL = 0b00#2) ∧
  (s.M = Mode.hyp.num ↔ s.EL = el2) ∧
  (s.M = Mode.mon.num →
    s.EL = el3 ∧ s.cfg.haveEL3 = true ∧ s.cfg.el3AArch32 = true ∧ s.ss = .secure) ∧
  (s.M = Mode.fiq.num ∨ s.M = Mode.irq.num ∨ s.M = Mode.svc.num ∨ s.M = Mode.abt.num ∨
      s.M = Mode.und.num ∨ s.M = Mode.sys.num →
    s.EL = if s.cfg.haveEL3 = true ∧ s.cfg.el3AArch32 = true ∧ s.ss = .secure then el3 else 0b01#2)

/-- The program is n words of four bytes that do not fill the address space
(70_reset_and_hazards.md R174). -/
abbrev programWf (p : Program) : Prop :=
  p.bytes.length % 4 = 0 ∧ p.bytes.length < 2 ^ 32

/-- `pc` is at an instruction of the program or just past the last (70_reset_and_hazards.md R174). -/
abbrev pcInProgram (s : State) : Prop :=
  programOffset s % 4 = 0 ∧ programOffset s ≤ s.program.bytes.length

/-- `pc` is a multiple of 4 in A32 and of 2 in T32, the launch premise of 10_state.md R27. -/
abbrev pcAligned (s : State) : Prop :=
  (s.iset = .a32 → s.pc.toNat % 4 = 0) ∧ (s.iset = .t32 → s.pc.toNat % 2 = 0)

/-- What every step of a run keeps. -/
structure Inv (s : State) : Prop where
  /-- Data memory is in its canonical form. -/
  memory : Memory.wf s.mem
  /-- `M` is one of the nine mode numbers (10_state.md R22). -/
  legalMode : (Mode.ofNum s.M).isSome = true
  /-- The Exception level fits the mode (10_state.md R34). -/
  level : elConsistent s
  /-- The program is well formed. -/
  program : programWf s.program
  /-- `pc` has not left the program. -/
  inside : pcInProgram s
  /-- `pc` is aligned for the instruction set. -/
  aligned : pcAligned s

end Sys2Proof.Machine
end

