-- ==== Sys2Proof/Certificates/Slice0/Obligations.lean ====
section
/-! DEFINITION. The statements about AArch32 SRS for the provers. Every statement ranges over every
state, and so over every configuration (log entry 1). A statement's docstring names the rules it
rests on and, where a clause is a decision (the spec's own or the model's), says so. -/

namespace Sys2Proof.Table

/-- The column `match` of 30_encoding.md R81. -/
def matchValue : Encoding → Word
  | .srsdaA1 => 0xF8400000#32
  | .srsdbA1 => 0xF9400000#32
  | .srsiaA1 => 0xF8C00000#32
  | .srsibA1 => 0xF9C00000#32
  | .srsT1 => 0xE8000000#32
  | .srsT2 => 0xE9800000#32

/-- The column `should_be` of 30_encoding.md R81. -/
def shouldBe : Encoding → Word
  | .srsdaA1 => 0x000D0500#32
  | .srsdbA1 => 0x000D0500#32
  | .srsiaA1 => 0x000D0500#32
  | .srsibA1 => 0x000D0500#32
  | .srsT1 => 0x000DC000#32
  | .srsT2 => 0x000DC000#32

/-- The column "canonical word" of 30_encoding.md R81, for W = 0 and mode = 0. -/
def canonical : Encoding → Word
  | .srsdaA1 => 0xF84D0500#32
  | .srsdbA1 => 0xF94D0500#32
  | .srsiaA1 => 0xF8CD0500#32
  | .srsibA1 => 0xF9CD0500#32
  | .srsT1 => 0xE80DC000#32
  | .srsT2 => 0xE98DC000#32

/-- The column "`address` (where LR goes)" of 40_srs.md R109. -/
def lrAddress (e : Encoding) (base : Word) : Word :=
  match e with
  | .srsdaA1 => base - 4#32
  | .srsdbA1 => base - 8#32
  | .srsiaA1 => base
  | .srsibA1 => base + 4#32
  | .srsT1 => base - 8#32
  | .srsT2 => base

/-- The column "`address+4` (where SPSR goes)" of 40_srs.md R109. -/
def spsrAddress (e : Encoding) (base : Word) : Word :=
  match e with
  | .srsdaA1 => base
  | .srsdbA1 => base - 4#32
  | .srsiaA1 => base + 4#32
  | .srsibA1 => base + 8#32
  | .srsT1 => base - 4#32
  | .srsT2 => base + 4#32

/-- The column "writeback value" of 40_srs.md R109. -/
def newBase (e : Encoding) (base : Word) : Word :=
  match e with
  | .srsdaA1 => base - 8#32
  | .srsdbA1 => base - 8#32
  | .srsiaA1 => base + 8#32
  | .srsibA1 => base + 8#32
  | .srsT1 => base - 8#32
  | .srsT2 => base + 8#32

/-- The row's value of "increment" (30_encoding.md R79, 40_srs.md R109). -/
def increments : Encoding → Bool
  | .srsdaA1 => false
  | .srsdbA1 => false
  | .srsiaA1 => true
  | .srsibA1 => true
  | .srsT1 => false
  | .srsT2 => true

/-- The class of a row, with P and U for A1 (30_encoding.md R78). -/
def encClass : Encoding → Machine.EncClass
  | .srsdaA1 => .A1 false false
  | .srsdbA1 => .A1 true false
  | .srsiaA1 => .A1 false true
  | .srsibA1 => .A1 true true
  | .srsT1 => .T1
  | .srsT2 => .T2

end Sys2Proof.Table

open Sys2Proof Sys2Proof.Machine

/-! ### Encoding and syntax -/

/-- Decoding the bytes of any instruction, whatever bytes follow, gives that instruction with every
field (W, the fifteen should-be bits, mode) and the bytes that follow (30_encoding.md R71 to R74). -/
def Obligations.DecodeOfEncodeIsTheInstruction : Prop :=
  ∀ (i : Instr) (rest : List Byte), decode i.iset (encode i ++ rest) = .ok (i, rest)

/-- Bytes that decode are exactly the decoded instruction's bytes and the rest, and are read in that
instruction's own instruction set (30_encoding.md R74, R80). -/
def Obligations.EncodeOfDecodeIsTheBytes : Prop :=
  ∀ (iset : InstrSet) (bs : List Byte) (i : Instr) (rest : List Byte),
    decode iset bs = .ok (i, rest) → iset = i.iset ∧ bs = encode i ++ rest

/-- A word is a row's instruction exactly where `w & mask == match`; its W and mode are bits 21 and
4:0, and it is canonical exactly where `w & 0x000FFFE0 == should_be` (30_encoding.md R81). -/
def Obligations.DecodingFollowsTheOpcodeTable : Prop :=
  ∀ (e : Encoding) (w : Word),
    (w &&& 0xFFD00000#32 = Table.matchValue e →
      ∃ i, decodeWord e.iset w = some i ∧ i.encoding = e ∧ i.W = w.getLsbD 21 ∧
        i.mode = w.extractLsb' 0 5 ∧
        (i.wf = true ↔ w &&& 0x000FFFE0#32 = Table.shouldBe e)) ∧
    (∀ i, decodeWord e.iset w = some i → i.encoding = e →
      w &&& 0xFFD00000#32 = Table.matchValue e)

/-- The canonical word of every row, W and mode: the table's word plus `W<<21` plus mode
(30_encoding.md R71, R72, R73, R81). -/
def Obligations.CanonicalWordsAreTheTables : Prop :=
  ∀ (e : Encoding) (W : Bool) (mode : BitVec 5),
    (e.instr W e.shouldBe mode).encodeWord =
      Table.canonical e + (if W then 0x00200000#32 else 0#32) + mode.setWidth 32

/-- No word is an SRS instruction in two instruction sets, and none is one in A64
(30_encoding.md R80). -/
def Obligations.NoWordIsAnInstructionInTwoSets : Prop :=
  ∀ (w : Word) (a b : InstrSet) (i j : Instr),
    decodeWord a w = some i → decodeWord b w = some j → a = b ∧ a ≠ .a64

/-- Sanity: words of 30_encoding.md R89 and 95_test_vectors.md V2 decode to what the spec says they
are, and V2's words that are no SRS decode to nothing. -/
def Obligations.SampleWordsDecodeAsTheSpecSays : Prop :=
  decodeWord .a32 0xF84D0513#32 = some (.srsdaA1 false 0b110100000101000#15 0x13#5) ∧
  decodeWord .a32 0xF96D0513#32 = some (.srsdbA1 true 0b110100000101000#15 0x13#5) ∧
  decodeWord .a32 0xF8ED051F#32 = some (.srsiaA1 true 0b110100000101000#15 0x1F#5) ∧
  decodeWord .a32 0xF9CD0517#32 = some (.srsibA1 false 0b110100000101000#15 0x17#5) ∧
  decodeWord .t32 0xE82DC013#32 = some (.srsdbT1 true 0b110111000000000#15 0x13#5) ∧
  decodeWord .t32 0xE98DC01B#32 = some (.srsiaT2 false 0b110111000000000#15 0x1B#5) ∧
  decodeWord .a32 0xF92D0513#32 = none ∧ decodeWord .a32 0xF97D0513#32 = none ∧
  decodeWord .a32 0xE96D0513#32 = none ∧ decodeWord .t32 0xE88DC013#32 = none ∧
  decodeWord .t32 0xE90DC013#32 = none ∧ decodeWord .t32 0xE84DC013#32 = none

/-- A well-formed instruction's line of syntax assembles to that instruction, and whatever a line
assembles to is well formed, belongs to the set it was assembled for and carries the line's `!` and
mode number (30_encoding.md R75, R82, R86 to R88). `<c>` (R84): outside T32 a condition other than AL
is rejected and AL is as no condition; in T32 any condition is accepted and is no part of the
encoding. `<q>` (R85): `.N` is rejected and `.W` is as no width. -/
def Obligations.AssembleAndDisassembleAgree : Prop :=
  (∀ i : Instr, i.wf = true → assemble i.iset (disassemble i) = some i) ∧
  (∀ (iset : InstrSet) (l : AsmLine) (i : Instr), assemble iset l = some i →
    i.wf = true ∧ i.iset = iset ∧ i.W = l.bang ∧ i.mode.toNat = l.mode) ∧
  ∀ (iset : InstrSet) (l : AsmLine),
    (iset ≠ .t32 → assemble iset { l with cond := some .conditional } = none) ∧
    assemble iset { l with cond := some .al } = assemble iset { l with cond := none } ∧
    (∀ c, assemble .t32 { l with cond := c } = assemble .t32 l) ∧
    assemble iset { l with width := some .narrow } = none ∧
    assemble iset { l with width := some .wide } = assemble iset { l with width := none }

/-- SRSFA, SRSEA, SRSFD and SRSED are SRSIB, SRSIA, SRSDB and SRSDA, a bare SRS is SRSIA, and T32 has
no SRSDA, SRSIB, SRSED or SRSFA (30_encoding.md R82, R83, R88). -/
def Obligations.PseudoInstructionsExpand : Prop :=
  ∀ (iset : InstrSet) (l : AsmLine),
    assemble iset { l with mnemonic := .srsfa } = assemble iset { l with mnemonic := .srsib } ∧
    assemble iset { l with mnemonic := .srsea } = assemble iset { l with mnemonic := .srsia } ∧
    assemble iset { l with mnemonic := .srsfd } = assemble iset { l with mnemonic := .srsdb } ∧
    assemble iset { l with mnemonic := .srsed } = assemble iset { l with mnemonic := .srsda } ∧
    assemble iset { l with mnemonic := .srs } = assemble iset { l with mnemonic := .srsia } ∧
    assemble .t32 { l with mnemonic := .srsda } = none ∧
    assemble .t32 { l with mnemonic := .srsib } = none

/-- The Decode line of each class (30_encoding.md R79), with the A1 expansions. -/
def Obligations.DecodeLinesSetTheThreeVariables : Prop :=
  (∀ P U W : Bool, decodeLine (.A1 P U) W = { wback := W, increment := U, wordhigher := P == U }) ∧
  (∀ W : Bool, decodeLine .T1 W = { wback := W, increment := false, wordhigher := false }) ∧
  (∀ W : Bool, decodeLine .T2 W = { wback := W, increment := true, wordhigher := false }) ∧
  (∀ e : Encoding, classOf e = Table.encClass e) ∧
  (∀ W : Bool,
    decodeLine (classOf .srsdaA1) W = { wback := W, increment := false, wordhigher := true } ∧
    decodeLine (classOf .srsdbA1) W = { wback := W, increment := false, wordhigher := false } ∧
    decodeLine (classOf .srsiaA1) W = { wback := W, increment := true, wordhigher := false } ∧
    decodeLine (classOf .srsibA1) W = { wback := W, increment := true, wordhigher := true } ∧
    decodeLine .T1 W = decodeLine (classOf .srsdbA1) W ∧
    decodeLine .T2 W = decodeLine (classOf .srsiaA1) W)

/-! ### What each instruction does -/

/-- SRSDA (A1) from a ready state completes: LR at base-4, SPSR at base, base-8 written back if W = 1
(40_srs.md R116), `pc` moved past it (the spec's decision D2), nothing else changed. -/
def Obligations.SrsdaStoresAndCompletes : Prop :=
  ∀ (s : State) (cur target : Mode) (W : Bool) (spsrv : Word),
    ready s cur target (readSP s target - 4#32) → readSPSR s cur = some spsrv →
    exec (.srsdaA1 W 0b110100000101000#15 target.num) s =
      .next { s with
        mem := pairMem s (readSP s target - 4#32) (readLR s cur) spsrv
        sp := if W then setSpBank s.sp target (readSP s target - 8#32) else s.sp
        pc := s.pc + 4#32 }

/-- SRSDB (A1 and T1) from a ready state completes: LR at base-8, SPSR at base-4, base-8 written back
if W = 1 (40_srs.md R117, R120), `pc` moved past it (D2). For T1 the step's condition input must be
TRUE and is used up (R101; log entry 8). -/
def Obligations.SrsdbStoresAndCompletes : Prop :=
  ∀ (s : State) (cur target : Mode) (W : Bool) (spsrv : Word),
    ready s cur target (readSP s target - 8#32) → readSPSR s cur = some spsrv →
    exec (.srsdbA1 W 0b110100000101000#15 target.num) s =
      .next { s with
        mem := pairMem s (readSP s target - 8#32) (readLR s cur) spsrv
        sp := if W then setSpBank s.sp target (readSP s target - 8#32) else s.sp
        pc := s.pc + 4#32 } ∧
    (s.condInputs.headD true = true →
      exec (.srsdbT1 W 0b110111000000000#15 target.num) s =
        .next { s with
          mem := pairMem s (readSP s target - 8#32) (readLR s cur) spsrv
          sp := if W then setSpBank s.sp target (readSP s target - 8#32) else s.sp
          pc := s.pc + 4#32
          condInputs := s.condInputs.tail })

/-- SRSIA (A1 and T2) from a ready state completes: LR at base, SPSR at base+4, base+8 written back if
W = 1 (40_srs.md R118, R121), `pc` moved past it (D2). For T2 the step's condition input must be TRUE
and is used up (R101; log entry 8). -/
def Obligations.SrsiaStoresAndCompletes : Prop :=
  ∀ (s : State) (cur target : Mode) (W : Bool) (spsrv : Word),
    ready s cur target (readSP s target) → readSPSR s cur = some spsrv →
    exec (.srsiaA1 W 0b110100000101000#15 target.num) s =
      .next { s with
        mem := pairMem s (readSP s target) (readLR s cur) spsrv
        sp := if W then setSpBank s.sp target (readSP s target + 8#32) else s.sp
        pc := s.pc + 4#32 } ∧
    (s.condInputs.headD true = true →
      exec (.srsiaT2 W 0b110111000000000#15 target.num) s =
        .next { s with
          mem := pairMem s (readSP s target) (readLR s cur) spsrv
          sp := if W then setSpBank s.sp target (readSP s target + 8#32) else s.sp
          pc := s.pc + 4#32
          condInputs := s.condInputs.tail })

/-- SRSIB (A1) from a ready state completes: LR at base+4, SPSR at base+8, base+8 written back if
W = 1 (40_srs.md R119), `pc` moved past it (D2), nothing else changed. -/
def Obligations.SrsibStoresAndCompletes : Prop :=
  ∀ (s : State) (cur target : Mode) (W : Bool) (spsrv : Word),
    ready s cur target (readSP s target + 4#32) → readSPSR s cur = some spsrv →
    exec (.srsibA1 W 0b110100000101000#15 target.num) s =
      .next { s with
        mem := pairMem s (readSP s target + 4#32) (readLR s cur) spsrv
        sp := if W then setSpBank s.sp target (readSP s target + 8#32) else s.sp
        pc := s.pc + 4#32 }

/-- The address table of 40_srs.md R109, for all six encodings from a ready state
(70_reset_and_hazards.md R171): the instruction completes; the word at the LR address holds the current mode's LR and the word at the SPSR address, 4 above, its SPSR, in
the configured byte order (20_memory.md R52, the spec's decision D4; R110); no other byte of memory changes; with W = 1 the specified mode's SP is
the table's writeback value. -/
def Obligations.StoredWordsFollowTheAddressTable : Prop :=
  ∀ (e : Encoding) (s : State) (cur target : Mode) (W : Bool) (spsrv : Word),
    ready s cur target (Table.lrAddress e (readSP s target)) → readSPSR s cur = some spsrv →
    condPassed (classOf e) s = true →
    Table.spsrAddress e (readSP s target) = Table.lrAddress e (readSP s target) + 4#32 ∧
    ∃ t, exec (e.instr W e.shouldBe target.num) s = .next t ∧
      holdsWord t (Table.lrAddress e (readSP s target)) (readLR s cur) ∧
      holdsWord t (Table.spsrAddress e (readSP s target)) spsrv ∧
      (∀ a, outside8 (Table.lrAddress e (readSP s target)) a → readByte t a = readByte s a) ∧
      (W = true → readSP t target = Table.newBase e (readSP s target))

/-- Writeback (40_srs.md R111), for all six encodings: the instruction completes with both stores made;
with W = 1 the specified mode's SP, the same one read as base, becomes base+8 for the increment
variants and base-8 for the decrement variants, modulo 2^32; the value depends on `increment` alone;
every other bank and register keeps its value; with W = 0 no register is written at all. -/
def Obligations.WritebackMovesOnlyTheSpecifiedSp : Prop :=
  ∀ (e : Encoding) (s : State) (cur target : Mode) (W : Bool) (spsrv : Word),
    ready s cur target (Table.lrAddress e (readSP s target)) → readSPSR s cur = some spsrv →
    condPassed (classOf e) s = true →
    ∃ t, exec (e.instr W e.shouldBe target.num) s = .next t ∧
      t.mem = pairMem s (Table.lrAddress e (readSP s target)) (readLR s cur) spsrv ∧
      (W = true → readSP t target =
        if Table.increments e then readSP s target + 8#32 else readSP s target - 8#32) ∧
      (∀ k, sameSpBank k target = false → readSP t k = readSP s k) ∧
      t.r = s.r ∧ t.lr = s.lr ∧ t.spsr = s.spsr ∧
      (W = false → t.sp = s.sp)

/-- The base is the SP of the specified mode (40_srs.md R108) and no other mode's SP is read
(10_state.md R23), the current mode's included: outside OWN_STACK and UNKNOWN_STORE, a completing
SRS with another value in any bank that the specified mode does not name completes alike, with that
value still in the bank. -/
def Obligations.OnlyTheSpecifiedSpIsRead : Prop :=
  ∀ (i : Instr) (s t : State) (target k : Mode) (v : Word), i.mode = target.num →
    sameSpBank k target = false →
    (badMode s.cfg i.mode = true → i.mode ≠ 0b11010#5 → i.mode ≠ 0b10110#5 →
      s.cfg.cu4 ≠ .ownStack ∧ s.cfg.cu4 ≠ .unknownStore) →
    exec i s = .next t → exec i (writeSP s k v) = .next (writeSP t k v)

/-- The frame of the whole family (10_state.md R38, 40_srs.md R124), for every path but case 4 resolved
as OWN_STACK or UNKNOWN_STORE (each has a statement of its own): a completed SRS leaves every mode
and status field, R0 to R12, every LR and SPSR, the configuration, the program and every SP bank but
the specified mode's unchanged, the specified mode's too without writeback, and every byte of memory
but the 8 from the address `storeAddress` gives for the specified mode's SP; where the mode field
names no mode, every byte and every SP.
The program counter and the condition inputs may change. -/
def Obligations.CompletedSrsChangesNothingElse : Prop :=
  ∀ (i : Instr) (s t : State), exec i s = .next t →
    (badMode s.cfg i.mode = true → i.mode ≠ 0b11010#5 → i.mode ≠ 0b10110#5 →
      s.cfg.cu4 ≠ .ownStack ∧ s.cfg.cu4 ≠ .unknownStore) →
    t.M = s.M ∧ t.EL = s.EL ∧ t.ss = s.ss ∧ t.iset = s.iset ∧ t.r = s.r ∧ t.lr = s.lr ∧
    t.spsr = s.spsr ∧ t.program = s.program ∧ t.cfg = s.cfg ∧ t.draws = s.draws ∧
    (i.W = false → t.sp = s.sp) ∧
    (∀ k, (∀ target, Mode.ofNum i.mode = some target → sameSpBank k target = false) →
      readSP t k = readSP s k) ∧
    (∀ a, (∀ target, Mode.ofNum i.mode = some target →
        outside8 (storeAddress (decodeLine (classOf i.encoding) i.W) (readSP s target)) a) →
      readByte t a = readByte s a)

/-- The condition gate (40_srs.md R101) for T1 and T2: with a FALSE condition input the instruction
completes with no check made (also at EL2 and in User mode) and nothing changed but `pc` (D2) and the
input, which is used up (log entry 8). -/
def Obligations.FailedConditionOnlyMovesOn : Prop :=
  ∀ (s : State) (W : Bool) (mode : BitVec 5) (inputs : List Bool),
    (currentMode s).isSome = true → s.condInputs = false :: inputs →
    exec (.srsdbT1 W 0b110111000000000#15 mode) s =
      .next { s with pc := s.pc + 4#32, condInputs := inputs } ∧
    exec (.srsiaT2 W 0b110111000000000#15 mode) s =
      .next { s with pc := s.pc + 4#32, condInputs := inputs }

/-- An A1 instruction takes no condition input, since `cond_passed` is TRUE for every A1 execution
(40_srs.md R101, the spec's decision D3); that it keeps the inputs that wait is the MODEL's choice
(log entry 8). -/
def Obligations.A1IgnoresTheConditionInputs : Prop :=
  ∀ (i : Instr) (s t : State) (inputs : List Bool), i.iset = .a32 → exec i s = .next t →
    t.condInputs = s.condInputs ∧
    exec i { s with condInputs := inputs } = .next { t with condInputs := inputs }

/-- User (0x10) and System (0x1F) as the specified mode name one stack pointer and have the same
effect where both are implemented (40_srs.md R123 (b), 10_state.md R23). -/
def Obligations.UserAndSystemNameOneStack : Prop :=
  ∀ (e : Encoding) (W : Bool) (sb : BitVec 15) (s : State),
    implemented s.cfg 0b10000#5 = true → implemented s.cfg 0b11111#5 = true →
    exec (e.instr W sb 0b10000#5) s = exec (e.instr W sb 0b11111#5) s

/-- With no condition input waiting, the T32 forms act as the A1 forms with the same Decode result:
T1 as A1 SRSDB, T2 as A1 SRSIA (40_srs.md R114, R120, R121). -/
def Obligations.ThumbFormsActAsTheirA1Forms : Prop :=
  ∀ (W : Bool) (mode : BitVec 5) (s : State), s.condInputs = [] →
    exec (.srsdbT1 W 0b110111000000000#15 mode) s = exec (.srsdbA1 W 0b110100000101000#15 mode) s ∧
    exec (.srsiaT2 W 0b110111000000000#15 mode) s = exec (.srsiaA1 W 0b110100000101000#15 mode) s

/-! ### Checks, raises and refusals -/

/-- UNDEFINED at EL2 (40_srs.md R102): with EL = '10' every canonical SRS whose condition passes raises
Undefined and nothing else, whatever its mode field holds. -/
def Obligations.UndefinedAtEl2WhateverTheMode : Prop :=
  ∀ (e : Encoding) (W : Bool) (mode : BitVec 5) (s : State),
    (Mode.ofNum s.M).isSome = true → condPassed (classOf e) s = true → s.EL = 0b10#2 →
    exec (e.instr W e.shouldBe mode) s = .fault (.undefined s.pc none)

/-- Case 1 (40_srs.md R103, R113): executed in User (0x10) or System (0x1F) mode outside EL2, whatever
the mode field holds, the instruction is kept as Unpredictable(1), is UNDEFINED or is a NOP, as the
configuration says. -/
def Obligations.UserAndSystemModeAreCaseOne : Prop :=
  ∀ (e : Encoding) (W : Bool) (mode : BitVec 5) (s : State),
    s.M = 0b10000#5 ∨ s.M = 0b11111#5 → s.EL ≠ 0b10#2 → condPassed (classOf e) s = true →
    (s.cfg.cu1 = .keep →
      exec (e.instr W e.shouldBe mode) s = .fault (.unpredictable s.pc .userOrSystem)) ∧
    (s.cfg.cu1 = .undef →
      exec (e.instr W e.shouldBe mode) s = .fault (.undefined s.pc (some .userOrSystem))) ∧
    (s.cfg.cu1 = .nop → exec (e.instr W e.shouldBe mode) s = .next (complete (classOf e) s))

/-- Case 2 (40_srs.md R104, R113): Hyp (0x1A) as the specified mode, whether or not it is
implemented. -/
def Obligations.HypAsSpecifiedModeIsCaseTwo : Prop :=
  ∀ (e : Encoding) (W : Bool) (cur : Mode) (s : State),
    s.M = cur.num → savesReturnState cur → s.EL ≠ 0b10#2 → condPassed (classOf e) s = true →
    (s.cfg.cu2 = .keep →
      exec (e.instr W e.shouldBe 0b11010#5) s = .fault (.unpredictable s.pc .hypMode)) ∧
    (s.cfg.cu2 = .undef →
      exec (e.instr W e.shouldBe 0b11010#5) s = .fault (.undefined s.pc (some .hypMode))) ∧
    (s.cfg.cu2 = .nop → exec (e.instr W e.shouldBe 0b11010#5) s = .next (complete (classOf e) s))

/-- Monitor (0x16) as the specified mode, where cases 1 and 2 do not apply (40_srs.md R105): (a)
without EL3 or outside Secure state Unpredictable(3), resolved as the configuration says; (b)
otherwise, with EL3 using AArch64, MonitorModeTrap; (c) otherwise the operation goes on with the
Monitor-mode SP, and `BadMode` (the configuration's `modes`) is not consulted. -/
def Obligations.MonitorAsSpecifiedMode : Prop :=
  ∀ (e : Encoding) (W : Bool) (cur : Mode) (s : State),
    s.M = cur.num → savesReturnState cur → s.EL ≠ 0b10#2 → condPassed (classOf e) s = true →
    (s.cfg.haveEL3 = false ∨ s.ss ≠ .secure →
      exec (e.instr W e.shouldBe 0b10110#5) s = resolveCu (classOf e) s.cfg.cu3 .monitorMode s) ∧
    (s.cfg.haveEL3 = true → s.ss = .secure → s.cfg.el3AArch32 = false →
      exec (e.instr W e.shouldBe 0b10110#5) s = .fault (.monitorModeTrap s.pc)) ∧
    (s.cfg.haveEL3 = true → s.ss = .secure → s.cfg.el3AArch32 = true →
      exec (e.instr W e.shouldBe 0b10110#5) s =
        srsBody (classOf e) (decodeLine (classOf e) W) cur .mon s)

/-- The three resolutions of Unpredictable(1), (2) and (3) (40_srs.md R113): the fault kept, UNDEFINED
with the case recorded, or NOP, which changes `pc` (D2) only; that for T32 it also uses up the
condition input is the MODEL's choice (log entry 8). -/
def Obligations.CasesOneToThreeResolveInThreeWays : Prop :=
  ∀ (c : EncClass) (case : CuCase) (s : State),
    resolveCu c .keep case s = .fault (.unpredictable s.pc case) ∧
    resolveCu c .undef case s = .fault (.undefined s.pc (some case)) ∧
    resolveCu c .nop case s =
      .next { s with
        pc := s.pc + 4#32
        condInputs := match c with
          | .A1 _ _ => s.condInputs
          | .T1 => s.condInputs.tail
          | .T2 => s.condInputs.tail }

/-- Case 4 (40_srs.md R106, R113): a specified mode other than Hyp and Monitor for which `BadMode`
holds; the resolutions keep, UNDEF and NOP. (OWN_STACK and UNKNOWN_STORE have statements of their
own.) -/
def Obligations.BadModeIsCaseFour : Prop :=
  ∀ (e : Encoding) (W : Bool) (mode : BitVec 5) (cur : Mode) (s : State),
    s.M = cur.num → savesReturnState cur → s.EL ≠ 0b10#2 → condPassed (classOf e) s = true →
    mode ≠ 0b11010#5 → mode ≠ 0b10110#5 → badMode s.cfg mode = true →
    (s.cfg.cu4 = .keep →
      exec (e.instr W e.shouldBe mode) s = .fault (.unpredictable s.pc .badMode)) ∧
    (s.cfg.cu4 = .undef →
      exec (e.instr W e.shouldBe mode) s = .fault (.undefined s.pc (some .badMode))) ∧
    (s.cfg.cu4 = .nop → exec (e.instr W e.shouldBe mode) s = .next (complete (classOf e) s))

/-- `BadMode` (10_state.md R22, R31, the spec's decision D13) on every configuration: TRUE for the 23
values that are not modes; for each mode but Monitor the negation of the configuration's Boolean for
it; for Monitor the negation of its Boolean with `have_el3` and `el3_aarch32`, so TRUE unless EL3
exists and uses AArch32. -/
def Obligations.BadModeHoldsOfEveryNonMode : Prop :=
  ∀ (cfg : Config) (m : BitVec 5),
    ((m < 0b10000#5 ∨ m = 0x14#5 ∨ m = 0x15#5 ∨ m = 0x18#5 ∨ m = 0x19#5 ∨ m = 0x1C#5 ∨
        m = 0x1D#5 ∨ m = 0x1E#5) → badMode cfg m = true) ∧
    badMode cfg 0x10#5 = !cfg.modes.usr ∧ badMode cfg 0x11#5 = !cfg.modes.fiq ∧
    badMode cfg 0x12#5 = !cfg.modes.irq ∧ badMode cfg 0x13#5 = !cfg.modes.svc ∧
    badMode cfg 0x17#5 = !cfg.modes.abt ∧ badMode cfg 0x1A#5 = !cfg.modes.hyp ∧
    badMode cfg 0x1B#5 = !cfg.modes.und ∧ badMode cfg 0x1F#5 = !cfg.modes.sys ∧
    badMode cfg 0x16#5 = !(cfg.modes.mon && cfg.haveEL3 && cfg.el3AArch32)

/-- OWN_STACK (40_srs.md R113): the operation goes on with the current mode in place of the specified
one; the writeback to the current mode's SP is the spec's own reading. -/
def Obligations.OwnStackStoresToTheCurrentStack : Prop :=
  ∀ (e : Encoding) (W : Bool) (mode : BitVec 5) (cur : Mode) (s : State) (spsrv : Word),
    s.M = cur.num → savesReturnState cur → s.EL ≠ 0b10#2 → condPassed (classOf e) s = true →
    mode ≠ 0b11010#5 → mode ≠ 0b10110#5 → badMode s.cfg mode = true → s.cfg.cu4 = .ownStack →
    readSPSR s cur = some spsrv → storable s (Table.lrAddress e (readSP s cur)) →
    exec (e.instr W e.shouldBe mode) s =
      .next (complete (classOf e)
        { s with
          mem := pairMem s (Table.lrAddress e (readSP s cur)) (readLR s cur) spsrv
          sp := if W then setSpBank s.sp cur (Table.newBase e (readSP s cur)) else s.sp })

/-- Where OWN_STACK stops (40_srs.md R113, with R53, R63 and R55 of 20_memory.md and the order of
60_exceptions.md R147; the spec's decisions D5, D6, D8 and D17): AlignmentFault where the current
mode's SP is not a multiple of 4; else StoreToProgram where the 8 bytes overlap the program; else
DataAbort of the lower word's address if it is not admitted, or of the upper's, with the state before
but for the 8 target bytes, which are free (and the model's counter of free values). -/
def Obligations.OwnStackStopsWhereItCannotStore : Prop :=
  ∀ (e : Encoding) (W : Bool) (mode : BitVec 5) (cur : Mode) (s : State),
    s.M = cur.num → savesReturnState cur → s.EL ≠ 0b10#2 → condPassed (classOf e) s = true →
    mode ≠ 0b11010#5 → mode ≠ 0b10110#5 → badMode s.cfg mode = true → s.cfg.cu4 = .ownStack →
    (aligned4 (readSP s cur) = false →
      exec (e.instr W e.shouldBe mode) s =
        .fault (.alignmentFault s.pc (Table.lrAddress e (readSP s cur)))) ∧
    (aligned4 (readSP s cur) = true →
      overlapsProgram s.program (Table.lrAddress e (readSP s cur)) = true →
      exec (e.instr W e.shouldBe mode) s =
        .refused (.storeToProgram s.pc (Table.lrAddress e (readSP s cur)))) ∧
    (aligned4 (readSP s cur) = true →
      overlapsProgram s.program (Table.lrAddress e (readSP s cur)) = false →
      (memAdmit s.cfg (Table.lrAddress e (readSP s cur)) 4 true = false ∨
        memAdmit s.cfg (Table.spsrAddress e (readSP s cur)) 4 true = false) →
      ∃ after,
        exec (e.instr W e.shouldBe mode) s =
          .fault (.dataAbort s.pc
            (if memAdmit s.cfg (Table.lrAddress e (readSP s cur)) 4 true
              then Table.spsrAddress e (readSP s cur)
              else Table.lrAddress e (readSP s cur)) after) ∧
        { after with mem := s.mem, draws := s.draws } = s ∧
        ∀ a, outside8 (Table.lrAddress e (readSP s cur)) a → readByte after a = readByte s a)

/-- UNKNOWN_STORE (40_srs.md R113): where the free address is admitted and is not the program's (log
entry 12), the instruction completes; LR and SPSR stand at that address, every other byte is
unchanged; every SPSR and every mode field is unchanged; without writeback every register is, and
with it the banks that are not accessible at the current Exception level are. This holds whatever
the free values are. -/
def Obligations.UnknownStoreKeepsTheInaccessible : Prop :=
  ∀ (e : Encoding) (W : Bool) (mode : BitVec 5) (cur : Mode) (s : State) (spsrv : Word),
    s.M = cur.num → savesReturnState cur → s.EL ≠ 0b10#2 → condPassed (classOf e) s = true →
    mode ≠ 0b11010#5 → mode ≠ 0b10110#5 → badMode s.cfg mode = true →
    s.cfg.cu4 = .unknownStore → readSPSR s cur = some spsrv →
    overlapsProgram s.program (Config.freeWord s.draws) = false →
    memAdmit s.cfg (Config.freeWord s.draws) 4 true = true →
    memAdmit s.cfg (Config.freeWord s.draws + 4#32) 4 true = true →
    ∃ t, exec (e.instr W e.shouldBe mode) s = .next t ∧
      holdsWord t (Config.freeWord s.draws) (readLR s cur) ∧
      holdsWord t (Config.freeWord s.draws + 4#32) spsrv ∧
      (∀ a, outside8 (Config.freeWord s.draws) a → readByte t a = readByte s a) ∧
      t.pc = s.pc + 4#32 ∧ t.spsr = s.spsr ∧ t.M = s.M ∧ t.EL = s.EL ∧ t.ss = s.ss ∧
      t.iset = s.iset ∧ t.cfg = s.cfg ∧ t.program = s.program ∧
      (W = false → t.r = s.r ∧ t.sp = s.sp ∧ t.lr = s.lr) ∧
      (∀ k, accessible s k = false → readSP t k = readSP s k) ∧
      (∀ k, k ≠ .hyp → accessible s k = false → readLR t k = readLR s k)

/-- Where UNKNOWN_STORE stops, which is the MODEL's reading (log entry 12; 40_srs.md R113): with no
alignment check, StoreToProgram where the 8 bytes at the free address overlap the program
(20_memory.md R63, D17); else DataAbort where one of the two words is not admitted (20_memory.md R55,
D6), with the state before but for those 8 bytes (and the model's counter of free values). This holds
whatever the free values are. -/
def Obligations.UnknownStoreStopsWhereItCannotStore : Prop :=
  ∀ (e : Encoding) (W : Bool) (mode : BitVec 5) (cur : Mode) (s : State),
    s.M = cur.num → savesReturnState cur → s.EL ≠ 0b10#2 → condPassed (classOf e) s = true →
    mode ≠ 0b11010#5 → mode ≠ 0b10110#5 → badMode s.cfg mode = true →
    s.cfg.cu4 = .unknownStore →
    (overlapsProgram s.program (Config.freeWord s.draws) = true →
      exec (e.instr W e.shouldBe mode) s =
        .refused (.storeToProgram s.pc (Config.freeWord s.draws))) ∧
    (overlapsProgram s.program (Config.freeWord s.draws) = false →
      (memAdmit s.cfg (Config.freeWord s.draws) 4 true = false ∨
        memAdmit s.cfg (Config.freeWord s.draws + 4#32) 4 true = false) →
      ∃ after,
        exec (e.instr W e.shouldBe mode) s =
          .fault (.dataAbort s.pc
            (if memAdmit s.cfg (Config.freeWord s.draws) 4 true
              then Config.freeWord s.draws + 4#32
              else Config.freeWord s.draws) after) ∧
        { after with mem := s.mem, draws := s.draws } = s ∧
        ∀ a, outside8 (Config.freeWord s.draws) a → readByte after a = readByte s a)

/-- Should-be bits that differ (30_encoding.md R75, the spec's decision D9): Unpredictable(0), a fault,
whatever the condition, the mode and the configuration. -/
def Obligations.ViolatedShouldBeBitsAreCaseZero : Prop :=
  ∀ (e : Encoding) (W : Bool) (sb : BitVec 15) (mode : BitVec 5) (s : State),
    (currentMode s).isSome = true → sb ≠ e.shouldBe →
    exec (e.instr W sb mode) s = .fault (.unpredictable s.pc .shouldBe)

/-- A current mode without a meaning of LR and SPSR (10_state.md R34, the spec's decision D29) is
refused before anything else: M is none of the nine numbers, or Hyp outside EL2. -/
def Obligations.MeaninglessCurrentModeIsRefused : Prop :=
  ∀ (i : Instr) (s : State),
    (s.M < 0b10000#5 ∨ s.M = 0x14#5 ∨ s.M = 0x15#5 ∨ s.M = 0x18#5 ∨ s.M = 0x19#5 ∨ s.M = 0x1C#5 ∨
      s.M = 0x1D#5 ∨ s.M = 0x1E#5 ∨ (s.M = 0x1A#5 ∧ s.EL ≠ 0b10#2)) →
    exec i s = .refused (.badCurrentMode s.pc s.M)

/-- A base that is not a multiple of 4 (20_memory.md R53, 60_exceptions.md R144, the spec's decision
D5): AlignmentFault of the address LR would go to, before every other check on memory. -/
def Obligations.MisalignedBaseFaults : Prop :=
  ∀ (e : Encoding) (W : Bool) (cur target : Mode) (s : State),
    s.M = cur.num → savesReturnState cur → s.EL ≠ 0b10#2 → condPassed (classOf e) s = true →
    usableTarget s target → aligned4 (readSP s target) = false →
    exec (e.instr W e.shouldBe target.num) s =
      .fault (.alignmentFault s.pc (Table.lrAddress e (readSP s target)))

/-- A store that would overlap the program (20_memory.md R63, the spec's decision D17) is refused, before
admission is asked. -/
def Obligations.StoreToProgramIsRefused : Prop :=
  ∀ (e : Encoding) (W : Bool) (cur target : Mode) (s : State),
    s.M = cur.num → savesReturnState cur → s.EL ≠ 0b10#2 → condPassed (classOf e) s = true →
    usableTarget s target → aligned4 (readSP s target) = true →
    overlapsProgram s.program (Table.lrAddress e (readSP s target)) = true →
    exec (e.instr W e.shouldBe target.num) s =
      .refused (.storeToProgram s.pc (Table.lrAddress e (readSP s target)))

/-- A store that is not admitted (20_memory.md R55, 60_exceptions.md R145, the spec's decision D6):
DataAbort of the lower word's address if that word is refused, else of the upper's; no writeback;
the state carried differs from the state before only in the 8 target bytes, which are free (and in
the model's counter of free values). -/
def Obligations.UnadmittedStoreAborts : Prop :=
  ∀ (e : Encoding) (W : Bool) (cur target : Mode) (s : State),
    s.M = cur.num → savesReturnState cur → s.EL ≠ 0b10#2 → condPassed (classOf e) s = true →
    usableTarget s target → aligned4 (readSP s target) = true →
    overlapsProgram s.program (Table.lrAddress e (readSP s target)) = false →
    (memAdmit s.cfg (Table.lrAddress e (readSP s target)) 4 true = false ∨
      memAdmit s.cfg (Table.spsrAddress e (readSP s target)) 4 true = false) →
    ∃ after,
      exec (e.instr W e.shouldBe target.num) s =
        .fault (.dataAbort s.pc
          (if memAdmit s.cfg (Table.lrAddress e (readSP s target)) 4 true
            then Table.spsrAddress e (readSP s target)
            else Table.lrAddress e (readSP s target)) after) ∧
      { after with mem := s.mem, draws := s.draws } = s ∧
      ∀ a, outside8 (Table.lrAddress e (readSP s target)) a → readByte after a = readByte s a

/-- Every DataAbort carries the state before the instruction but for the 8 target bytes and the
model's counter of free values (60_exceptions.md R148): the 8 bytes are those from the address
`storeAddress` gives for the specified mode's SP; where case 4 is resolved as OWN_STACK, for the
current mode's SP; where it is resolved as UNKNOWN_STORE, those at the free address. -/
def Obligations.AbortsArePreciseInTheRegisters : Prop :=
  ∀ (i : Instr) (s after : State) (p x : Word), exec i s = .fault (.dataAbort p x after) →
    p = s.pc ∧ { after with mem := s.mem, draws := s.draws } = s ∧
    (∀ target, i.mode = target.num → ¬isCaseFour s.cfg i.mode →
      ∀ a, outside8 (storeAddress (decodeLine (classOf i.encoding) i.W) (readSP s target)) a →
        readByte after a = readByte s a) ∧
    (∀ cur, s.M = cur.num → isCaseFour s.cfg i.mode → s.cfg.cu4 = .ownStack →
      ∀ a, outside8 (storeAddress (decodeLine (classOf i.encoding) i.W) (readSP s cur)) a →
        readByte after a = readByte s a) ∧
    (isCaseFour s.cfg i.mode → s.cfg.cu4 = .unknownStore →
      ∀ a, outside8 (Config.freeWord s.draws) a → readByte after a = readByte s a)

/-- The trap to EL3 is taken exactly on the Execute text's condition (40_srs.md R105, R107,
60_exceptions.md R143, 90_conflicts.md C7). -/
def Obligations.MonitorTrapExactlyOnItsCondition : Prop :=
  ∀ (e : Encoding) (W : Bool) (sb : BitVec 15) (mode : BitVec 5) (s : State) (p : Word),
    exec (e.instr W sb mode) s = .fault (.monitorModeTrap p) ↔
      (p = s.pc ∧ (currentMode s).isSome = true ∧ sb = e.shouldBe ∧
        condPassed (classOf e) s = true ∧ s.EL ≠ 0b10#2 ∧ s.M ≠ 0b10000#5 ∧ s.M ≠ 0b11111#5 ∧
        mode = 0b10110#5 ∧ s.cfg.haveEL3 = true ∧ s.ss = .secure ∧ s.cfg.el3AArch32 = false)

/-- Undefined with no case recorded is raised exactly at EL2, from a canonical SRS whose condition
passes (40_srs.md R102, R107, 60_exceptions.md R141, R147). -/
def Obligations.UndefinedExactlyAtEl2 : Prop :=
  ∀ (e : Encoding) (W : Bool) (sb : BitVec 15) (mode : BitVec 5) (s : State) (p : Word),
    exec (e.instr W sb mode) s = .fault (.undefined p none) ↔
      (p = s.pc ∧ (currentMode s).isSome = true ∧ sb = e.shouldBe ∧
        condPassed (classOf e) s = true ∧ s.EL = 0b10#2)

/-- With every CONSTRAINED UNPREDICTABLE case kept as a fault (the policy 92_eei_decisions.md
D8 recommends for proofs), a canonical SRS whose condition passes completes exactly where items 1 to
6 of 70_reset_and_hazards.md R171 hold. -/
def Obligations.SrsCompletesExactlyWhenReady : Prop :=
  ∀ (e : Encoding) (W : Bool) (mode : BitVec 5) (cur : Mode) (s : State),
    currentMode s = some cur → condPassed (classOf e) s = true →
    s.cfg.cu1 = .keep → s.cfg.cu2 = .keep → s.cfg.cu3 = .keep → s.cfg.cu4 = .keep →
    (completes (exec (e.instr W e.shouldBe mode) s) ↔
      ∃ target, mode = target.num ∧
        ready s cur target (Table.lrAddress e (readSP s target)))

/-! ### Memory, registers and isolation -/

/-- The bytes of a stored word (20_memory.md R52): byte `addr+i` receives `v[8*i+7 : 8*i]` in
little-endian and `v[31-8*i : 24-8*i]` in big-endian order. -/
def Obligations.StoredWordsAreLaidOutByEndianness : Prop :=
  ∀ (cfg : Config) (m : Memory) (a v : Word) (i : Nat), i < 4 →
    memGet (storeWord cfg m a v) (a + BitVec.ofNat 32 i).toNat =
      if cfg.bigEndian then v.extractLsb' (24 - 8 * i) 8 else v.extractLsb' (8 * i) 8

/-- SRS reads no memory (40_srs.md R124, 20_memory.md R54): with other memory contents a step that
completes completes in the same way, and each byte is either one both runs store alike or one
neither stores. -/
def Obligations.StepsReadNoMemory : Prop :=
  ∀ (s t : State) (m : Memory), step s = .next t →
    ∃ m', step { s with mem := m } = .next { t with mem := m' } ∧
      ∀ a : Word, memGet m' a.toNat = readByte t a ∨
        (memGet m' a.toNat = memGet m a.toNat ∧ readByte t a = readByte s a)

/-- R0 to R12 are neither read nor written (10_state.md R26), outside UNKNOWN_STORE. -/
def Obligations.GeneralRegistersAreNeitherReadNorWritten : Prop :=
  ∀ (i : Instr) (s t : State) (v : Vector Word 13), s.cfg.cu4 ≠ .unknownStore →
    exec i s = .next t → t.r = s.r ∧ exec i { s with r := v } = .next { t with r := v }

/-- SP_hyp is never written (10_state.md R23, 60_exceptions.md R152), but for UNKNOWN_STORE at EL3
(whose reach is log entry 12). -/
def Obligations.HypStackPointerIsNeverWritten : Prop :=
  ∀ (i : Instr) (s t : State), exec i s = .next t →
    s.EL ≠ 0b11#2 ∨ s.cfg.cu4 ≠ .unknownStore → t.sp.hyp = s.sp.hyp

/-- Monitor mode's SP and LR are out of reach of every other mode unless EL3 exists, uses AArch32 and
the PE is Secure (60_exceptions.md R152), but for UNKNOWN_STORE at EL3 (whose reach is log entry 12):
a completing SRS changes neither, and with other values in the two it completes alike, so it reads
neither. -/
def Obligations.MonitorBanksAreIsolated : Prop :=
  ∀ (i : Instr) (s t : State) (v w : Word), exec i s = .next t → s.M ≠ 0b10110#5 →
    ¬(s.cfg.haveEL3 = true ∧ s.ss = .secure ∧ s.cfg.el3AArch32 = true) →
    s.EL ≠ 0b11#2 ∨ s.cfg.cu4 ≠ .unknownStore →
    t.sp.mon = s.sp.mon ∧ t.lr.mon = s.lr.mon ∧
    exec i { s with sp := { s.sp with mon := v }, lr := { s.lr with mon := w } } =
      .next { t with sp := { t.sp with mon := v }, lr := { t.lr with mon := w } }

/-- A step changes no mode, level, security state, instruction set, SPSR, configuration or program, on
any path, and no LR outside UNKNOWN_STORE (10_state.md R38, 40_srs.md R124). -/
def Obligations.StepsKeepModeSpsrAndConfiguration : Prop :=
  ∀ s t : State, step s = .next t →
    t.M = s.M ∧ t.EL = s.EL ∧ t.ss = s.ss ∧ t.iset = s.iset ∧ t.spsr = s.spsr ∧ t.cfg = s.cfg ∧
    t.program = s.program ∧ (s.cfg.cu4 ≠ .unknownStore → t.lr = s.lr)

/-- No step stores to the program's addresses (20_memory.md R63, the spec's decision D17), on any path. -/
def Obligations.NoStoreReachesTheProgram : Prop :=
  ∀ (s t : State) (a : Word), step s = .next t → inProgram s.program a = true →
    readByte t a = readByte s a

/-- A completed SRS is sequential: `pc` moves by 4; a raise records the instruction's own address
(10_state.md R27, 40_srs.md R122, 60_exceptions.md R140; the spec's decision D2). -/
def Obligations.ControlIsSequential : Prop :=
  ∀ (i : Instr) (s : State),
    (∀ t, exec i s = .next t → t.pc = s.pc + 4#32) ∧
    (∀ f, exec i s = .fault f → faultPc f = s.pc)

/-- Of the admission predicate only 4-byte privileged accesses are asked (20_memory.md R54, R55; the
spec's decision D24): rules about other accesses change nothing. -/
def Obligations.OnlyPrivilegedWordsAreAskedFor : Prop :=
  ∀ (i : Instr) (s t : State) (extra : List DenyRule),
    (∀ d ∈ extra, d.size ≠ 4 ∨ d.priv = false) → exec i s = .next t →
    exec i { s with cfg := { s.cfg with memDeny := s.cfg.memDeny ++ extra } } =
      .next { t with cfg := { t.cfg with memDeny := s.cfg.memDeny ++ extra } }

/-! ### The step -/

/-- A step runs the instruction that the program's bytes at `pc` decode to, in the current instruction
set (00_scope.md R11, 70_reset_and_hazards.md R174); the step itself adds nothing. -/
def Obligations.StepRunsTheDecodedInstruction : Prop :=
  ∀ (s : State) (i : Instr) (rest : List Byte),
    programOffset s % 4 = 0 → programOffset s + 4 ≤ s.program.bytes.length →
    decode s.iset (s.program.bytes.drop (programOffset s)) = .ok (i, rest) →
    step s = exec i s

/-- A word of the program that is no SRS encoding of the current instruction set is refused as NotSRS
(30_encoding.md R76, the spec's decision D22), also where `M` has no meaning: that NotSRS comes before
BadCurrentMode is the MODEL's choice (log entry 9). -/
def Obligations.WordsThatAreNotSrsAreRefused : Prop :=
  ∀ (s : State) (b0 b1 b2 b3 : Byte) (rest : List Byte),
    programOffset s % 4 = 0 →
    s.program.bytes.drop (programOffset s) = b0 :: b1 :: b2 :: b3 :: rest →
    decodeWord s.iset (wordOfBytes s.iset b0 b1 b2 b3) = none →
    step s = .refused (.notSRS s.pc (wordOfBytes s.iset b0 b1 b2 b3))

/-- Just past the program the run has ended; at any other place that is no instruction's the step is
refused too (70_reset_and_hazards.md R174; that the step answers so is log entry 9). -/
def Obligations.RunsEndJustPastTheProgram : Prop :=
  ∀ s : State,
    (programOffset s = s.program.bytes.length → step s = .refused (.runEnded s.pc)) ∧
    (programOffset s ≠ s.program.bytes.length →
      programOffset s % 4 ≠ 0 ∨ s.program.bytes.length < programOffset s + 4 →
      step s = .refused (.outsideProgram s.pc))

/-- A placed word runs: the next step executes the instruction the table's word decodes to, and the
placing changes nothing but the program and the instruction set (log entries 4 and 10). -/
def Obligations.PlacedWordsRun : Prop :=
  ∀ (s : State) (nbits w : Nat) (i : Instr), decodeTableWord nbits w = some i →
    step (s.withFetchWord nbits w) = exec i (s.withFetchWord nbits w) ∧
    { s.withFetchWord nbits w with program := s.program, iset := s.iset } = s ∧
    (s.withFetchWord nbits w).iset = i.iset

/-- HEADLINE. Every step from a state that meets the invariant gives a state that meets it: memory in
canonical form, a legal mode, the Exception level that fits it (10_state.md R34), a well-formed
program, `pc` at an instruction of it or just past it (70_reset_and_hazards.md R174) and aligned
(10_state.md R27). -/
def Obligations.StepKeepsTheInvariant : Prop :=
  ∀ s t : State, Inv s → step s = .next t → Inv t

/-- The state after reset (the MODEL's choice of values, log entries 2 to 8) meets the invariant. -/
def Obligations.ResetMeetsTheInvariant : Prop :=
  Inv State.reset

/-- What the MODEL chose for reset, whole (log entries 2 to 8; the source gives no reset value,
10_state.md R37): Supervisor mode at EL1 (entry 3), Non-secure, A32; every register zero (entry 2);
pc and the base of an empty program 0x1000 (entry 4); empty memory (entry 6); the spec's default
configuration but for the four cases, resolved as NOP (entry 5: the spec's own default is a fault);
no condition input (entry 8) and no free value used (entry 7). -/
def Obligations.ResetIsSupervisorWithNothingPlaced : Prop :=
  State.reset.M = Mode.svc.num ∧ State.reset.EL = 0b01#2 ∧ State.reset.ss = .nonSecure ∧
  State.reset.iset = .a32 ∧ State.reset.pc = 0x1000#32 ∧ State.reset.mem = [] ∧
  State.reset.program.base = 0x1000#32 ∧ State.reset.program.bytes = [] ∧
  State.reset.condInputs = [] ∧ State.reset.draws = 0 ∧
  (∀ (k : Nat) (hk : k < 13), State.reset.r[k] = 0#32) ∧
  (∀ m, readSP State.reset m = 0#32) ∧ (∀ m, readLR State.reset m = 0#32) ∧
  (∀ m v, readSPSR State.reset m = some v → v = 0#32) ∧
  State.reset.cfg.haveEL3 = false ∧ State.reset.cfg.el3AArch32 = true ∧
  (∀ m, hasMode State.reset.cfg.modes m = (m != .mon && m != .hyp)) ∧
  State.reset.cfg.bigEndian = false ∧ State.reset.cfg.memDeny = [] ∧
  State.reset.cfg.cu1 = .nop ∧ State.reset.cfg.cu2 = .nop ∧ State.reset.cfg.cu3 = .nop ∧
  State.reset.cfg.cu4 = .nop ∧
  step State.reset = .refused (.runEnded 0x1000#32)
end

