-- ==== Sys2Proof/Laws/Encoding.lean ====
section
/-! SUPPORT. The fields of an instruction word: a word put together from its fields has those fields,
and a word whose bit 20 is zero is put together from its own. -/

namespace Sys2Proof

/-- A word put together from bits 31:22, W, L, the should-be bits and mode. -/
abbrev wordOfFields (top : BitVec 10) (W : Bool) (sb : BitVec 15) (mode : BitVec 5) : Word :=
  top ++ BitVec.ofBool W ++ 0#1 ++ sb ++ mode

theorem topField_wordOfFields (top : BitVec 10) (W : Bool) (sb : BitVec 15) (mode : BitVec 5) :
    topField (wordOfFields top W sb mode) = top := by
  apply BitVec.eq_of_getLsbD_eq
  intro i hi
  simp only [topField, BitVec.getLsbD_extractLsb', BitVec.getLsbD_append, hi, decide_true,
    show ¬22 + i < 5 by omega, show ¬22 + i - 5 < 15 by omega, show ¬22 + i - 5 - 15 < 1 by omega,
    show ¬22 + i - 5 - 15 - 1 < 1 by omega, if_false]
  simp [show 22 + i - 5 - 15 - 1 - 1 = i by omega]

theorem wField_wordOfFields (top : BitVec 10) (W : Bool) (sb : BitVec 15) (mode : BitVec 5) :
    wField (wordOfFields top W sb mode) = W := by
  simp only [wField, BitVec.getLsbD_append]
  simp

theorem lField_wordOfFields (top : BitVec 10) (W : Bool) (sb : BitVec 15) (mode : BitVec 5) :
    lField (wordOfFields top W sb mode) = false := by
  simp only [lField, BitVec.getLsbD_append]
  simp

theorem sbField_wordOfFields (top : BitVec 10) (W : Bool) (sb : BitVec 15) (mode : BitVec 5) :
    sbField (wordOfFields top W sb mode) = sb := by
  apply BitVec.eq_of_getLsbD_eq
  intro i hi
  simp only [sbField, BitVec.getLsbD_extractLsb', BitVec.getLsbD_append]
  simp [show ¬5 + i < 5 by omega, hi]

theorem modeField_wordOfFields (top : BitVec 10) (W : Bool) (sb : BitVec 15) (mode : BitVec 5) :
    modeField (wordOfFields top W sb mode) = mode := by
  apply BitVec.eq_of_getLsbD_eq
  intro i hi
  simp only [modeField, BitVec.getLsbD_extractLsb', BitVec.getLsbD_append]
  simp [hi]

/-- A word with L = 0 is put together from its own fields: no bit of it is dropped. -/
theorem wordOfFields_fields (w : Word) (h : lField w = false) :
    wordOfFields (topField w) (wField w) (sbField w) (modeField w) = w := by
  apply BitVec.eq_of_getLsbD_eq
  intro i hi
  simp only [topField, wField, sbField, modeField, BitVec.getLsbD_append,
    BitVec.getLsbD_extractLsb', lField] at *
  split
  · simp_all
  · split
    · simp_all [show 5 + (i - 5) = i by omega]
    · split
      · obtain rfl : i = 20 := by omega
        simp_all
      · split
        · obtain rfl : i = 21 := by omega
          simp
        · simp only [show 22 + (i - 5 - 15 - 1 - 1) = i by omega]
          simp
          omega

/-- The bits that select an instruction (30_encoding.md R81): bits 31:22 and bit 20. -/
theorem and_selectMask (w : Word) :
    w &&& 0xFFD00000#32 = topField w ++ 0#1 ++ BitVec.ofBool (lField w) ++ 0#20 := by
  apply BitVec.eq_of_getLsbD_eq
  intro i hi
  simp only [BitVec.getLsbD_and, BitVec.getLsbD_append, topField, lField,
    BitVec.getLsbD_extractLsb']
  interval_cases i <;> simp

/-- The should-be bits (30_encoding.md R81): bits 19:5. -/
theorem and_shouldBeMask (w : Word) :
    w &&& 0x000FFFE0#32 = 0#12 ++ sbField w ++ 0#5 := by
  apply BitVec.eq_of_getLsbD_eq
  intro i hi
  simp only [BitVec.getLsbD_and, BitVec.getLsbD_append, sbField, BitVec.getLsbD_extractLsb']
  interval_cases i <;> simp

/-- Bytes laid out and read back give the word (30_encoding.md R74). -/
theorem wordOfBytes_layout (iset : InstrSet) (w : Word) :
    ∃ b0 b1 b2 b3, layout iset w = [b0, b1, b2, b3] ∧ wordOfBytes iset b0 b1 b2 b3 = w := by
  cases iset <;> refine ⟨_, _, _, _, rfl, ?_⟩ <;>
    (apply BitVec.eq_of_getLsbD_eq
     intro i hi
     simp only [wordOfBytes, BitVec.getLsbD_append, BitVec.getLsbD_extractLsb']
     interval_cases i <;> simp)

/-- Reading four bytes and laying the word out gives the bytes (30_encoding.md R74). -/
theorem layout_wordOfBytes (iset : InstrSet) (b0 b1 b2 b3 : Byte) :
    layout iset (wordOfBytes iset b0 b1 b2 b3) = [b0, b1, b2, b3] := by
  cases iset <;> simp only [layout, wordOfBytes, List.cons.injEq, and_true] <;>
    refine ⟨?_, ?_, ?_, ?_⟩ <;>
    (apply BitVec.eq_of_getLsbD_eq
     intro i hi
     simp only [BitVec.getLsbD_extractLsb', BitVec.getLsbD_append]
     interval_cases i <;> simp)

/-- An encoding's instruction is of that encoding, with the fields it was given. -/
@[simp] theorem Encoding.instr_encoding (e : Encoding) (W : Bool) (sb : BitVec 15)
    (mode : BitVec 5) : (e.instr W sb mode).encoding = e := by
  cases e <;> rfl

@[simp] theorem Encoding.instr_W (e : Encoding) (W : Bool) (sb : BitVec 15) (mode : BitVec 5) :
    (e.instr W sb mode).W = W := by
  cases e <;> rfl

@[simp] theorem Encoding.instr_sb (e : Encoding) (W : Bool) (sb : BitVec 15) (mode : BitVec 5) :
    (e.instr W sb mode).sb = sb := by
  cases e <;> rfl

@[simp] theorem Encoding.instr_mode (e : Encoding) (W : Bool) (sb : BitVec 15) (mode : BitVec 5) :
    (e.instr W sb mode).mode = mode := by
  cases e <;> rfl

/-- An instruction is its encoding's instruction with its own fields. -/
theorem Instr.instr_fields (i : Instr) : i.encoding.instr i.W i.sb i.mode = i := by
  cases i <;> rfl

/-- A row that fits a word in its own instruction set is the row the decoder finds: no two rows of one
set have the same selecting bits. -/
theorem find_of_fits {e : Encoding} {w : Word} (h : e.fits w = true) :
    (Encoding.all.find? fun k => k.iset == e.iset && k.fits w) = some e := by
  simp only [Encoding.fits, Bool.and_eq_true, beq_iff_eq, Bool.not_eq_true'] at h
  cases e <;> simp [Encoding.all, Encoding.fits, h.1, h.2] <;> decide

/-- The row the decoder finds fits the word and belongs to the instruction set. -/
theorem fits_of_find {e : Encoding} {iset : InstrSet} {w : Word}
    (h : (Encoding.all.find? fun k => k.iset == iset && k.fits w) = some e) :
    e.iset = iset ∧ e.fits w = true := by
  have := List.find?_some h
  simpa using this

/-- What a decoded word says. -/
theorem decodeWord_eq_some_iff (iset : InstrSet) (w : Word) (i : Instr) :
    decodeWord iset w = some i ↔
      ∃ e : Encoding, e.iset = iset ∧ e.fits w = true ∧
        i = e.instr (wField w) (sbField w) (modeField w) := by
  unfold decodeWord
  constructor
  · intro h
    split at h
    · next e he =>
      obtain ⟨h1, h2⟩ := fits_of_find he
      exact ⟨e, h1, h2, (Option.some.inj h).symm⟩
    · simp at h
  · rintro ⟨e, rfl, h2, rfl⟩
    rw [find_of_fits h2]

end Sys2Proof
end

