-- ==== Sys2Proof/Laws/State.lean ====
section
/-! SUPPORT. One lemma per field for each named update of State, true by unfolding the update once,
so that no later proof unfolds a record update. -/

namespace Sys2Proof.Machine

@[simp] theorem setMem_M (s : State) (m : Memory) : (setMem s m).M = s.M := rfl

@[simp] theorem setMem_EL (s : State) (m : Memory) : (setMem s m).EL = s.EL := rfl

@[simp] theorem setMem_ss (s : State) (m : Memory) : (setMem s m).ss = s.ss := rfl

@[simp] theorem setMem_iset (s : State) (m : Memory) : (setMem s m).iset = s.iset := rfl

@[simp] theorem setMem_r (s : State) (m : Memory) : (setMem s m).r = s.r := rfl

@[simp] theorem setMem_sp (s : State) (m : Memory) : (setMem s m).sp = s.sp := rfl

@[simp] theorem setMem_lr (s : State) (m : Memory) : (setMem s m).lr = s.lr := rfl

@[simp] theorem setMem_spsr (s : State) (m : Memory) : (setMem s m).spsr = s.spsr := rfl

@[simp] theorem setMem_pc (s : State) (m : Memory) : (setMem s m).pc = s.pc := rfl

@[simp] theorem setMem_mem (s : State) (m : Memory) : (setMem s m).mem = m := rfl

@[simp] theorem setMem_program (s : State) (m : Memory) : (setMem s m).program = s.program := rfl

@[simp] theorem setMem_condInputs (s : State) (m : Memory) :
    (setMem s m).condInputs = s.condInputs := rfl

@[simp] theorem setMem_cfg (s : State) (m : Memory) : (setMem s m).cfg = s.cfg := rfl

@[simp] theorem setMem_draws (s : State) (m : Memory) : (setMem s m).draws = s.draws := rfl

@[simp] theorem writeSP_M (s : State) (m : Mode) (v : Word) : (writeSP s m v).M = s.M := rfl

@[simp] theorem writeSP_EL (s : State) (m : Mode) (v : Word) : (writeSP s m v).EL = s.EL := rfl

@[simp] theorem writeSP_ss (s : State) (m : Mode) (v : Word) : (writeSP s m v).ss = s.ss := rfl

@[simp] theorem writeSP_iset (s : State) (m : Mode) (v : Word) :
    (writeSP s m v).iset = s.iset := rfl

@[simp] theorem writeSP_r (s : State) (m : Mode) (v : Word) : (writeSP s m v).r = s.r := rfl

@[simp] theorem writeSP_sp (s : State) (m : Mode) (v : Word) :
    (writeSP s m v).sp = setSpBank s.sp m v := rfl

@[simp] theorem writeSP_lr (s : State) (m : Mode) (v : Word) : (writeSP s m v).lr = s.lr := rfl

@[simp] theorem writeSP_spsr (s : State) (m : Mode) (v : Word) :
    (writeSP s m v).spsr = s.spsr := rfl

@[simp] theorem writeSP_pc (s : State) (m : Mode) (v : Word) : (writeSP s m v).pc = s.pc := rfl

@[simp] theorem writeSP_mem (s : State) (m : Mode) (v : Word) : (writeSP s m v).mem = s.mem := rfl

@[simp] theorem writeSP_program (s : State) (m : Mode) (v : Word) :
    (writeSP s m v).program = s.program := rfl

@[simp] theorem writeSP_condInputs (s : State) (m : Mode) (v : Word) :
    (writeSP s m v).condInputs = s.condInputs := rfl

@[simp] theorem writeSP_cfg (s : State) (m : Mode) (v : Word) : (writeSP s m v).cfg = s.cfg := rfl

@[simp] theorem writeSP_draws (s : State) (m : Mode) (v : Word) :
    (writeSP s m v).draws = s.draws := rfl

@[simp] theorem useDraws_M (s : State) (n : Nat) : (useDraws s n).M = s.M := rfl

@[simp] theorem useDraws_EL (s : State) (n : Nat) : (useDraws s n).EL = s.EL := rfl

@[simp] theorem useDraws_ss (s : State) (n : Nat) : (useDraws s n).ss = s.ss := rfl

@[simp] theorem useDraws_iset (s : State) (n : Nat) : (useDraws s n).iset = s.iset := rfl

@[simp] theorem useDraws_r (s : State) (n : Nat) : (useDraws s n).r = s.r := rfl

@[simp] theorem useDraws_sp (s : State) (n : Nat) : (useDraws s n).sp = s.sp := rfl

@[simp] theorem useDraws_lr (s : State) (n : Nat) : (useDraws s n).lr = s.lr := rfl

@[simp] theorem useDraws_spsr (s : State) (n : Nat) : (useDraws s n).spsr = s.spsr := rfl

@[simp] theorem useDraws_pc (s : State) (n : Nat) : (useDraws s n).pc = s.pc := rfl

@[simp] theorem useDraws_mem (s : State) (n : Nat) : (useDraws s n).mem = s.mem := rfl

@[simp] theorem useDraws_program (s : State) (n : Nat) : (useDraws s n).program = s.program := rfl

@[simp] theorem useDraws_condInputs (s : State) (n : Nat) :
    (useDraws s n).condInputs = s.condInputs := rfl

@[simp] theorem useDraws_cfg (s : State) (n : Nat) : (useDraws s n).cfg = s.cfg := rfl

@[simp] theorem useDraws_draws (s : State) (n : Nat) : (useDraws s n).draws = s.draws + n := rfl

@[simp] theorem complete_M (c : EncClass) (s : State) : (complete c s).M = s.M := rfl

@[simp] theorem complete_EL (c : EncClass) (s : State) : (complete c s).EL = s.EL := rfl

@[simp] theorem complete_ss (c : EncClass) (s : State) : (complete c s).ss = s.ss := rfl

@[simp] theorem complete_iset (c : EncClass) (s : State) : (complete c s).iset = s.iset := rfl

@[simp] theorem complete_r (c : EncClass) (s : State) : (complete c s).r = s.r := rfl

@[simp] theorem complete_sp (c : EncClass) (s : State) : (complete c s).sp = s.sp := rfl

@[simp] theorem complete_lr (c : EncClass) (s : State) : (complete c s).lr = s.lr := rfl

@[simp] theorem complete_spsr (c : EncClass) (s : State) : (complete c s).spsr = s.spsr := rfl

@[simp] theorem complete_pc (c : EncClass) (s : State) : (complete c s).pc = s.pc + 4#32 := rfl

@[simp] theorem complete_mem (c : EncClass) (s : State) : (complete c s).mem = s.mem := rfl

@[simp] theorem complete_program (c : EncClass) (s : State) :
    (complete c s).program = s.program := rfl

@[simp] theorem complete_condInputs (c : EncClass) (s : State) :
    (complete c s).condInputs = condInputsAfter c s := rfl

@[simp] theorem complete_cfg (c : EncClass) (s : State) : (complete c s).cfg = s.cfg := rfl

@[simp] theorem complete_draws (c : EncClass) (s : State) : (complete c s).draws = s.draws := rfl

@[simp] theorem abortState_M (s : State) (a : Word) : (abortState s a).M = s.M := rfl

@[simp] theorem abortState_EL (s : State) (a : Word) : (abortState s a).EL = s.EL := rfl

@[simp] theorem abortState_ss (s : State) (a : Word) : (abortState s a).ss = s.ss := rfl

@[simp] theorem abortState_iset (s : State) (a : Word) : (abortState s a).iset = s.iset := rfl

@[simp] theorem abortState_r (s : State) (a : Word) : (abortState s a).r = s.r := rfl

@[simp] theorem abortState_sp (s : State) (a : Word) : (abortState s a).sp = s.sp := rfl

@[simp] theorem abortState_lr (s : State) (a : Word) : (abortState s a).lr = s.lr := rfl

@[simp] theorem abortState_spsr (s : State) (a : Word) : (abortState s a).spsr = s.spsr := rfl

@[simp] theorem abortState_pc (s : State) (a : Word) : (abortState s a).pc = s.pc := rfl

@[simp] theorem abortState_mem (s : State) (a : Word) :
    (abortState s a).mem = storeBytes s.mem a (drawBytes s 8) := rfl

@[simp] theorem abortState_program (s : State) (a : Word) :
    (abortState s a).program = s.program := rfl

@[simp] theorem abortState_condInputs (s : State) (a : Word) :
    (abortState s a).condInputs = s.condInputs := rfl

@[simp] theorem abortState_cfg (s : State) (a : Word) : (abortState s a).cfg = s.cfg := rfl

@[simp] theorem abortState_draws (s : State) (a : Word) :
    (abortState s a).draws = s.draws + 8 := rfl

@[simp] theorem scrambleRegs_M (s : State) : (scrambleRegs s).M = s.M := rfl

@[simp] theorem scrambleRegs_EL (s : State) : (scrambleRegs s).EL = s.EL := rfl

@[simp] theorem scrambleRegs_ss (s : State) : (scrambleRegs s).ss = s.ss := rfl

@[simp] theorem scrambleRegs_iset (s : State) : (scrambleRegs s).iset = s.iset := rfl

@[simp] theorem scrambleRegs_spsr (s : State) : (scrambleRegs s).spsr = s.spsr := rfl

@[simp] theorem scrambleRegs_pc (s : State) : (scrambleRegs s).pc = s.pc := rfl

@[simp] theorem scrambleRegs_mem (s : State) : (scrambleRegs s).mem = s.mem := rfl

@[simp] theorem scrambleRegs_program (s : State) : (scrambleRegs s).program = s.program := rfl

@[simp] theorem scrambleRegs_condInputs (s : State) :
    (scrambleRegs s).condInputs = s.condInputs := rfl

@[simp] theorem scrambleRegs_cfg (s : State) : (scrambleRegs s).cfg = s.cfg := rfl

@[simp] theorem scrambleRegs_draws (s : State) : (scrambleRegs s).draws = s.draws + 28 := rfl

@[simp] theorem placeWord_M (s : State) (w : Word) : (placeWord s w).M = s.M := rfl

@[simp] theorem placeWord_EL (s : State) (w : Word) : (placeWord s w).EL = s.EL := rfl

@[simp] theorem placeWord_ss (s : State) (w : Word) : (placeWord s w).ss = s.ss := rfl

@[simp] theorem placeWord_iset (s : State) (w : Word) :
    (placeWord s w).iset = (isetOfWord w).getD s.iset := rfl

@[simp] theorem placeWord_r (s : State) (w : Word) : (placeWord s w).r = s.r := rfl

@[simp] theorem placeWord_sp (s : State) (w : Word) : (placeWord s w).sp = s.sp := rfl

@[simp] theorem placeWord_lr (s : State) (w : Word) : (placeWord s w).lr = s.lr := rfl

@[simp] theorem placeWord_spsr (s : State) (w : Word) : (placeWord s w).spsr = s.spsr := rfl

@[simp] theorem placeWord_pc (s : State) (w : Word) : (placeWord s w).pc = s.pc := rfl

@[simp] theorem placeWord_mem (s : State) (w : Word) : (placeWord s w).mem = s.mem := rfl

@[simp] theorem placeWord_program (s : State) (w : Word) :
    (placeWord s w).program = { base := s.pc, bytes := layout ((isetOfWord w).getD s.iset) w } := rfl

@[simp] theorem placeWord_condInputs (s : State) (w : Word) :
    (placeWord s w).condInputs = s.condInputs := rfl

@[simp] theorem placeWord_cfg (s : State) (w : Word) : (placeWord s w).cfg = s.cfg := rfl

@[simp] theorem placeWord_draws (s : State) (w : Word) : (placeWord s w).draws = s.draws := rfl

@[simp] theorem writeback_M (v : DecodeVars) (m : Mode) (b : Word) (s : State) :
    (writeback v m b s).M = s.M := by
  unfold writeback; split <;> rfl

@[simp] theorem writeback_EL (v : DecodeVars) (m : Mode) (b : Word) (s : State) :
    (writeback v m b s).EL = s.EL := by
  unfold writeback; split <;> rfl

@[simp] theorem writeback_ss (v : DecodeVars) (m : Mode) (b : Word) (s : State) :
    (writeback v m b s).ss = s.ss := by
  unfold writeback; split <;> rfl

@[simp] theorem writeback_iset (v : DecodeVars) (m : Mode) (b : Word) (s : State) :
    (writeback v m b s).iset = s.iset := by
  unfold writeback; split <;> rfl

@[simp] theorem writeback_r (v : DecodeVars) (m : Mode) (b : Word) (s : State) :
    (writeback v m b s).r = s.r := by
  unfold writeback; split <;> rfl

@[simp] theorem writeback_lr (v : DecodeVars) (m : Mode) (b : Word) (s : State) :
    (writeback v m b s).lr = s.lr := by
  unfold writeback; split <;> rfl

@[simp] theorem writeback_spsr (v : DecodeVars) (m : Mode) (b : Word) (s : State) :
    (writeback v m b s).spsr = s.spsr := by
  unfold writeback; split <;> rfl

@[simp] theorem writeback_pc (v : DecodeVars) (m : Mode) (b : Word) (s : State) :
    (writeback v m b s).pc = s.pc := by
  unfold writeback; split <;> rfl

@[simp] theorem writeback_mem (v : DecodeVars) (m : Mode) (b : Word) (s : State) :
    (writeback v m b s).mem = s.mem := by
  unfold writeback; split <;> rfl

@[simp] theorem writeback_program (v : DecodeVars) (m : Mode) (b : Word) (s : State) :
    (writeback v m b s).program = s.program := by
  unfold writeback; split <;> rfl

@[simp] theorem writeback_condInputs (v : DecodeVars) (m : Mode) (b : Word) (s : State) :
    (writeback v m b s).condInputs = s.condInputs := by
  unfold writeback; split <;> rfl

@[simp] theorem writeback_cfg (v : DecodeVars) (m : Mode) (b : Word) (s : State) :
    (writeback v m b s).cfg = s.cfg := by
  unfold writeback; split <;> rfl

@[simp] theorem writeback_draws (v : DecodeVars) (m : Mode) (b : Word) (s : State) :
    (writeback v m b s).draws = s.draws := by
  unfold writeback; split <;> rfl

/-- The stack pointers after a writeback. -/
@[simp] theorem writeback_sp (v : DecodeVars) (m : Mode) (b : Word) (s : State) :
    (writeback v m b s).sp =
      if v.wback then setSpBank s.sp m (writebackValue v b) else s.sp := by
  unfold writeback; split <;> simp_all

/-- Reading an SP that was just written: User and System share a bank. -/
@[simp] theorem readSP_writeSP_same (s : State) (m : Mode) (v : Word) :
    readSP (writeSP s m v) m = v := by
  cases m <;> rfl

@[simp] theorem readSP_setMem (s : State) (m : Memory) (k : Mode) :
    readSP (setMem s m) k = readSP s k := by
  cases k <;> rfl

@[simp] theorem readLR_setMem (s : State) (m : Memory) (k : Mode) :
    readLR (setMem s m) k = readLR s k := by
  cases k <;> rfl

@[simp] theorem readSPSR_setMem (s : State) (m : Memory) (k : Mode) :
    readSPSR (setMem s m) k = readSPSR s k := by
  cases k <;> rfl

@[simp] theorem readSP_complete (c : EncClass) (s : State) (k : Mode) :
    readSP (complete c s) k = readSP s k := by
  cases k <;> rfl

@[simp] theorem readByte_complete (c : EncClass) (s : State) (a : Word) :
    readByte (complete c s) a = readByte s a := rfl

@[simp] theorem readByte_writeback (v : DecodeVars) (m : Mode) (b : Word) (s : State) (a : Word) :
    readByte (writeback v m b s) a = readByte s a := by
  simp [readByte]

@[simp] theorem readByte_scrambleRegs (s : State) (a : Word) :
    readByte (scrambleRegs s) a = readByte s a := rfl

@[simp] theorem readByte_useDraws (s : State) (n : Nat) (a : Word) :
    readByte (useDraws s n) a = readByte s a := rfl

@[simp] theorem accessible_setMem (s : State) (m : Memory) (k : Mode) :
    accessible (setMem s m) k = accessible s k := rfl

@[simp] theorem accessible_useDraws (s : State) (n : Nat) (k : Mode) :
    accessible (useDraws s n) k = accessible s k := rfl

/-- The User bank can be accessed from every Exception level. -/
theorem accessible_usr (s : State) : accessible s .usr = true := by
  simp [accessible, bankLevel]

theorem accessible_sys (s : State) : accessible s .sys = true := by
  simp [accessible, bankLevel]

/-- UNKNOWN_STORE leaves an SP that cannot be accessed alone. -/
theorem readSP_scrambleRegs (s : State) (k : Mode) (h : accessible s k = false) :
    readSP (scrambleRegs s) k = readSP s k := by
  cases k <;> simp_all [accessible_usr, accessible_sys, readSP, scrambleRegs, useDraws, drawIf]

/-- UNKNOWN_STORE leaves an LR that cannot be accessed alone; Hyp mode uses the User LR. -/
theorem readLR_scrambleRegs (s : State) (k : Mode) (hk : k ≠ .hyp) (h : accessible s k = false) :
    readLR (scrambleRegs s) k = readLR s k := by
  cases k <;> simp_all [accessible_usr, accessible_sys, readLR, scrambleRegs, useDraws, drawIf]

end Sys2Proof.Machine
end

