-- ==== Sys2Proof/Laws/Memory.lean ====
section
/-! SUPPORT. The laws of data memory: a read after a write, a write leaves every other place alone,
and every memory operation keeps the canonical form. -/

namespace Sys2Proof.Machine

theorem memGet_memErase_same (m : Memory) (a : Nat) : memGet (memErase m a) a = unlistedByte := by
  induction m with
  | nil => rfl
  | cons p rest ih =>
    obtain ⟨k, v⟩ := p
    by_cases h : k = a <;> simp [memErase, memGet, h, ih]

theorem memGet_memErase_ne (m : Memory) (a c : Nat) (h : c ≠ a) :
    memGet (memErase m a) c = memGet m c := by
  induction m with
  | nil => rfl
  | cons p rest ih =>
    obtain ⟨k, v⟩ := p
    by_cases hk : k = a
    · have : k ≠ c := fun e => h (e ▸ hk)
      simp [memErase, memGet, hk, ih, Ne.symm h]
    · simp [memErase, memGet, hk, ih]

theorem memErase_key_ne (m : Memory) (a : Nat) : ∀ p ∈ memErase m a, p.1 ≠ a := by
  induction m with
  | nil => simp [memErase]
  | cons q rest ih =>
    obtain ⟨k, v⟩ := q
    by_cases hk : k = a
    · simpa [memErase, hk] using ih
    · simpa [memErase, hk] using ih

theorem memErase_subset (m : Memory) (a : Nat) : ∀ p ∈ memErase m a, p ∈ m := by
  induction m with
  | nil => simp [memErase]
  | cons q rest ih =>
    obtain ⟨k, v⟩ := q
    intro p hp
    by_cases hk : k = a
    · simp only [memErase, hk, if_true] at hp
      exact List.mem_cons_of_mem _ (ih p hp)
    · simp only [memErase, hk, if_false, List.mem_cons] at hp
      rcases hp with rfl | hp
      · exact List.mem_cons_self
      · exact List.mem_cons_of_mem _ (ih p hp)

theorem memGet_memInsert_same (m : Memory) (a : Nat) (b : Byte) (h : ∀ p ∈ m, p.1 ≠ a) :
    memGet (memInsert m a b) a = b := by
  induction m with
  | nil => simp [memInsert, memGet]
  | cons q rest ih =>
    obtain ⟨k, v⟩ := q
    have hk : k ≠ a := h (k, v) List.mem_cons_self
    by_cases hlt : a < k
    · simp [memInsert, hlt, memGet]
    · simp only [memInsert, hlt, if_false, memGet, hk]
      exact ih fun p hp => h p (List.mem_cons_of_mem _ hp)

theorem memGet_memInsert_ne (m : Memory) (a c : Nat) (b : Byte) (h : c ≠ a) :
    memGet (memInsert m a b) c = memGet m c := by
  induction m with
  | nil => simp [memInsert, memGet, Ne.symm h]
  | cons q rest ih =>
    obtain ⟨k, v⟩ := q
    by_cases hlt : a < k
    · simp [memInsert, hlt, memGet, Ne.symm h]
    · simp [memInsert, hlt, memGet, ih]

/-- A read after a write to the same place gives the value written. -/
theorem memGet_memSet_same (m : Memory) (a : Nat) (b : Byte) : memGet (memSet m a b) a = b := by
  unfold memSet
  split
  · next h => rw [memGet_memErase_same, h]
  · exact memGet_memInsert_same _ _ _ (memErase_key_ne m a)

/-- A write leaves every other place alone. -/
theorem memGet_memSet_ne (m : Memory) (a c : Nat) (b : Byte) (h : c ≠ a) :
    memGet (memSet m a b) c = memGet m c := by
  unfold memSet
  split
  · exact memGet_memErase_ne m a c h
  · rw [memGet_memInsert_ne _ _ _ _ h, memGet_memErase_ne m a c h]

theorem memErase_pairwise {m : Memory} (a : Nat) (h : m.Pairwise fun p q => p.1 < q.1) :
    (memErase m a).Pairwise fun p q => p.1 < q.1 := by
  induction m with
  | nil => exact h
  | cons q rest ih =>
    obtain ⟨k, v⟩ := q
    rw [List.pairwise_cons] at h
    by_cases hk : k = a
    · simpa [memErase, hk] using ih h.2
    · simp only [memErase, hk, if_false, List.pairwise_cons]
      exact ⟨fun p hp => h.1 p (memErase_subset rest a p hp), ih h.2⟩

theorem memInsert_mem {m : Memory} {a : Nat} {b : Byte} {p : Host.Cell} (h : p ∈ memInsert m a b) :
    p = (a, b) ∨ p ∈ m := by
  induction m with
  | nil => simpa [memInsert] using h
  | cons q rest ih =>
    obtain ⟨k, v⟩ := q
    by_cases hlt : a < k
    · simpa [memInsert, hlt] using h
    · simp only [memInsert, hlt, if_false, List.mem_cons] at h ⊢
      rcases h with h | h
      · exact .inr (.inl h)
      · exact (ih h).imp_right .inr

theorem memInsert_pairwise {m : Memory} (a : Nat) (b : Byte)
    (h : m.Pairwise fun p q => p.1 < q.1) (hne : ∀ p ∈ m, p.1 ≠ a) :
    (memInsert m a b).Pairwise fun p q => p.1 < q.1 := by
  induction m with
  | nil => simp [memInsert]
  | cons q rest ih =>
    obtain ⟨k, v⟩ := q
    have hk : k ≠ a := hne (k, v) List.mem_cons_self
    rw [List.pairwise_cons] at h
    by_cases hlt : a < k
    · rw [memInsert, if_pos hlt]
      simp only [List.pairwise_cons, List.mem_cons, forall_eq_or_imp]
      exact ⟨⟨hlt, fun p hp => hlt.trans (h.1 p hp)⟩, h.1, h.2⟩
    · simp only [memInsert, hlt, if_false, List.pairwise_cons]
      refine ⟨fun p hp => ?_, ih h.2 fun p hp => hne p (List.mem_cons_of_mem _ hp)⟩
      rcases memInsert_mem hp with rfl | hp
      · show k < a
        omega
      · exact h.1 p hp

/-- Writing one byte below 2^32 keeps the canonical form. -/
theorem memSet_wf {m : Memory} (a : Nat) (b : Byte) (ha : a < 2 ^ 32) (h : Memory.wf m) :
    Memory.wf (memSet m a b) := by
  unfold memSet
  split
  · exact ⟨memErase_pairwise a h.1, fun p hp => h.2 p (memErase_subset m a p hp)⟩
  · next hb =>
    refine ⟨memInsert_pairwise a b (memErase_pairwise a h.1) (memErase_key_ne m a), fun p hp => ?_⟩
    rcases memInsert_mem hp with rfl | hp
    · exact ⟨hb, ha⟩
    · exact h.2 p (memErase_subset m a p hp)

/-- Storing bytes keeps the canonical form. -/
theorem storeBytes_wf {m : Memory} (a : Word) (bs : List Byte) (h : Memory.wf m) :
    Memory.wf (storeBytes m a bs) := by
  induction bs generalizing m a with
  | nil => exact h
  | cons b rest ih => exact ih _ (memSet_wf a.toNat b a.isLt h)

/-- The two stores keep the canonical form. -/
theorem pairMem_wf (s : State) (address lrv spsrv : Word) (h : Memory.wf s.mem) :
    Memory.wf (pairMem s address lrv spsrv) :=
  storeBytes_wf _ _ (storeBytes_wf _ _ h)

/-- Reset's memory has the canonical form. -/
theorem reset_mem_wf : Memory.wf State.reset.mem := by decide

/-- Storing bytes leaves every address they do not reach alone. -/
theorem memGet_storeBytes_outside (m : Memory) (a c : Word) (bs : List Byte)
    (h : ∀ k < bs.length, c ≠ a + BitVec.ofNat 32 k) :
    memGet (storeBytes m a bs) c.toNat = memGet m c.toNat := by
  induction bs generalizing m a with
  | nil => rfl
  | cons b rest ih =>
    have h0 : c ≠ a := by simpa using h 0 (by simp)
    rw [storeBytes, ih]
    · exact memGet_memSet_ne _ _ _ _ fun e => h0 (BitVec.eq_of_toNat_eq e)
    · intro k hk e
      refine h (k + 1) (by simpa using hk) ?_
      rw [e, BitVec.add_assoc]
      congr 1
      apply BitVec.eq_of_toNat_eq
      simp [Nat.add_comm]

/-- The k-th byte stored stands at the k-th address, for fewer than 2^32 bytes. -/
theorem memGet_storeBytes_inside (m : Memory) (a : Word) (bs : List Byte) (hlen : bs.length < 2 ^ 32)
    (k : Nat) (hk : k < bs.length) :
    memGet (storeBytes m a bs) (a + BitVec.ofNat 32 k).toNat = bs[k] := by
  induction bs generalizing m a k with
  | nil => simp at hk
  | cons b rest ih =>
    have hlen' : rest.length < 2 ^ 32 := by simp at hlen; omega
    cases k with
    | zero =>
      simp only [BitVec.add_zero, storeBytes, List.getElem_cons_zero]
      rw [memGet_storeBytes_outside, memGet_memSet_same]
      intro j hj e
      have hj' : j + 1 < 2 ^ 32 := by simp at hlen; omega
      have := congrArg BitVec.toNat e
      simp only [BitVec.toNat_add, BitVec.toNat_ofNat] at this
      have ha := a.isLt
      omega
    | succ j =>
      have e : a + BitVec.ofNat 32 (j + 1) = (a + 1#32) + BitVec.ofNat 32 j := by
        rw [BitVec.add_assoc]
        congr 1
        apply BitVec.eq_of_toNat_eq
        simp [Nat.add_comm]
      rw [e]
      simpa [storeBytes] using ih (memSet m a.toNat b) (a + 1#32) hlen' j (by simpa using hk)

@[simp] theorem wordBytes_length (be : Bool) (v : Word) : (wordBytes be v).length = 4 := by
  cases be <;> rfl

/-- The two stores leave every address outside their 8 bytes alone. -/
theorem memGet_pairMem_outside (s : State) (address lrv spsrv c : Word)
    (h : ∀ k < 8, c ≠ address + BitVec.ofNat 32 k) :
    memGet (pairMem s address lrv spsrv) c.toNat = memGet s.mem c.toNat := by
  unfold pairMem storeWord
  rw [memGet_storeBytes_outside, memGet_storeBytes_outside]
  · intro k hk
    exact h k (by simp at hk; omega)
  · intro k hk
    simp only [wordBytes_length] at hk
    rw [BitVec.add_assoc]
    have := h (4 + k) (by omega)
    rwa [BitVec.ofNat_add] at this

/-- The lower word of the two stores. -/
theorem memGet_pairMem_lower (s : State) (address lrv spsrv : Word) (k : Nat)
    (hk : k < (wordBytes s.cfg.bigEndian lrv).length) :
    memGet (pairMem s address lrv spsrv) (address + BitVec.ofNat 32 k).toNat =
      (wordBytes s.cfg.bigEndian lrv)[k] := by
  unfold pairMem storeWord
  rw [memGet_storeBytes_outside, memGet_storeBytes_inside]
  · simp
  · intro j hj e
    simp only [wordBytes_length] at hj hk
    have := congrArg BitVec.toNat e
    simp only [BitVec.toNat_add, BitVec.toNat_ofNat] at this
    have ha := address.isLt
    omega

/-- The upper word of the two stores. -/
theorem memGet_pairMem_upper (s : State) (address lrv spsrv : Word) (k : Nat)
    (hk : k < (wordBytes s.cfg.bigEndian spsrv).length) :
    memGet (pairMem s address lrv spsrv) (address + 4#32 + BitVec.ofNat 32 k).toNat =
      (wordBytes s.cfg.bigEndian spsrv)[k] := by
  unfold pairMem storeWord
  rw [memGet_storeBytes_inside]
  simp

end Sys2Proof.Machine
end

