-- ==== Sys2Proof/Laws/PerInstr.lean ====
section
/-! SUPPORT. What holds of every instruction as syntax, one lemma per constructor: the word of an
instruction has the fields its row of the opcode table gives it (30_encoding.md R71 to R73). -/

namespace Sys2Proof.Laws.EncodedFields

/-- The fields of an instruction's word are its row's selecting bits and its own operands. -/
def Statement (i : Instr) : Prop :=
  topField i.encodeWord = i.encoding.top ∧ wField i.encodeWord = i.W ∧
  lField i.encodeWord = false ∧ sbField i.encodeWord = i.sb ∧ modeField i.encodeWord = i.mode

/-- A word put together from fields has them. -/
theorem of_fields (i : Instr) : Statement i :=
  ⟨topField_wordOfFields .., wField_wordOfFields .., lField_wordOfFields ..,
    sbField_wordOfFields .., modeField_wordOfFields ..⟩

theorem srsdaA1 (W : Bool) (sb : BitVec 15) (mode : BitVec 5) : Statement (.srsdaA1 W sb mode) :=
  of_fields _

theorem srsdbA1 (W : Bool) (sb : BitVec 15) (mode : BitVec 5) : Statement (.srsdbA1 W sb mode) :=
  of_fields _

theorem srsiaA1 (W : Bool) (sb : BitVec 15) (mode : BitVec 5) : Statement (.srsiaA1 W sb mode) :=
  of_fields _

theorem srsibA1 (W : Bool) (sb : BitVec 15) (mode : BitVec 5) : Statement (.srsibA1 W sb mode) :=
  of_fields _

theorem srsdbT1 (W : Bool) (sb : BitVec 15) (mode : BitVec 5) : Statement (.srsdbT1 W sb mode) :=
  of_fields _

theorem srsiaT2 (W : Bool) (sb : BitVec 15) (mode : BitVec 5) : Statement (.srsiaT2 W sb mode) :=
  of_fields _

end Sys2Proof.Laws.EncodedFields
end

