-- ==== Sys2Proof/Laws/Srs.lean ====
section
/-! SUPPORT. What each shared operation can do, said once: the facts about modes, the inversion
lemmas of the stores, of the operation proper and of the whole SRS, and what follows for `exec`. -/

namespace Sys2Proof.Machine

/-! ### Modes -/

@[simp] theorem Mode.ofNum_num (m : Mode) : Mode.ofNum m.num = some m := by
  cases m <;> rfl

theorem Mode.num_injective {m k : Mode} (h : m.num = k.num) : m = k := by
  have := congrArg Mode.ofNum h
  simpa using this

/-- A number that has a mode is that mode's number. -/
theorem Mode.num_of_ofNum {n : BitVec 5} {m : Mode} (h : Mode.ofNum n = some m) : m.num = n := by
  have := List.find?_some h
  simpa using this

/-- The current mode, where it has a meaning, is the one `M` names. -/
theorem currentMode_num {s : State} {cur : Mode} (h : currentMode s = some cur) : s.M = cur.num := by
  unfold currentMode at h
  cases hm : Mode.ofNum s.M with
  | none => simp [hm] at h
  | some m =>
    have hn := Mode.num_of_ofNum hm
    cases m <;> simp [hm] at h <;> first | (rw [← h]; exact hn.symm) | (rw [← h.2]; exact hn.symm)

/-- A mode other than Hyp is always a current mode; Hyp is one at EL2. -/
theorem currentMode_of_num {s : State} {cur : Mode} (h : s.M = cur.num)
    (hh : cur = .hyp → s.EL = el2) : currentMode s = some cur := by
  unfold currentMode
  rw [h, Mode.ofNum_num]
  cases cur <;> simp_all

theorem savesReturnState_ne_hyp {cur : Mode} (h : savesReturnState cur) : cur ≠ .hyp := by
  rintro rfl
  simp [savesReturnState] at h

/-- The modes SRS runs from have an SPSR. -/
theorem readSPSR_isSome {cur : Mode} (h : savesReturnState cur) (s : State) :
    ∃ v, readSPSR s cur = some v := by
  rcases h with h | h | h | h | h | h <;> subst h <;> exact ⟨_, rfl⟩

/-- A mode with an SPSR that is neither Hyp nor at EL2 is one SRS runs from. -/
theorem savesReturnState_of_current {cur : Mode} (h1 : ¬(cur = .usr ∨ cur = .sys))
    (h2 : cur ≠ .hyp) : savesReturnState cur := by
  cases cur <;> simp_all [savesReturnState]

/-- Banks are told apart: writing one SP leaves the others. -/
theorem readSP_writeSP_other (s : State) (m k : Mode) (v : Word) (h : sameSpBank k m = false) :
    readSP (writeSP s m v) k = readSP s k := by
  cases m <;> cases k <;> first | rfl | exact absurd h (by decide)

/-! ### The stores -/

/-- The two stores complete exactly where nothing of their checks fails, and then only memory
changes. -/
theorem storePair_next_iff (s t : State) (address lrv spsrv : Word) :
    storePair s address lrv spsrv = .next t ↔
      (overlapsProgram s.program address = false ∧ memAdmit s.cfg address 4 true = true ∧
        memAdmit s.cfg (address + 4#32) 4 true = true) ∧
      t = setMem s (pairMem s address lrv spsrv) := by
  unfold storePair refuseStoreToProgram raiseDataAbort
  split
  · simp_all
  · split
    · simp_all
    · split
      · simp_all
      · simp_all [@eq_comm State t]

theorem storePairAligned_next_iff (s t : State) (address lrv spsrv : Word) :
    storePairAligned s address lrv spsrv = .next t ↔
      storable s address ∧ t = setMem s (pairMem s address lrv spsrv) := by
  unfold storePairAligned raiseAlignmentFault
  split
  · simp_all
  · rw [storePair_next_iff]
    simp_all [and_assoc]

/-- The two stores, where they may be made. -/
theorem storePairAligned_of_storable {s : State} {address : Word} (h : storable s address)
    (lrv spsrv : Word) :
    storePairAligned s address lrv spsrv = .next (setMem s (pairMem s address lrv spsrv)) :=
  (storePairAligned_next_iff ..).mpr ⟨h, rfl⟩

/-- An instruction goes on only from a next state. -/
theorem andThen_next_iff (o : Result) (f : State → Result) (t : State) :
    andThen o f = .next t ↔ ∃ s', o = .next s' ∧ f s' = .next t := by
  cases o <;> simp [andThen]

/-! ### The operation proper -/

/-- The state after a completed operation proper (40_srs.md R108 to R111). -/
def bodyState (c : EncClass) (v : DecodeVars) (cur target : Mode) (spsrv : Word) (s : State) :
    State :=
  complete c (writeback v target (readSP s target)
    (setMem s (pairMem s (storeAddress v (readSP s target)) (readLR s cur) spsrv)))

theorem srsBody_next_iff (c : EncClass) (v : DecodeVars) (cur target : Mode) (s t : State) :
    srsBody c v cur target s = .next t ↔
      ∃ spsrv, readSPSR s cur = some spsrv ∧ storable s (storeAddress v (readSP s target)) ∧
        t = bodyState c v cur target spsrv s := by
  unfold srsBody refuseBadCurrentMode
  cases h : readSPSR s cur with
  | none => simp
  | some spsrv =>
    simp only [andThen_next_iff, storePairAligned_next_iff, Host.Outcome.next.injEq,
      Option.some.injEq, exists_eq_left', bodyState]
    constructor
    · rintro ⟨s', ⟨hs, rfl⟩, rfl⟩
      exact ⟨hs, rfl⟩
    · rintro ⟨hs, rfl⟩
      exact ⟨_, ⟨hs, rfl⟩, rfl⟩

/-- The operation proper, where the stores may be made. -/
theorem srsBody_of_storable {c : EncClass} {v : DecodeVars} {cur target : Mode} {s : State}
    {spsrv : Word} (h : readSPSR s cur = some spsrv)
    (hs : storable s (storeAddress v (readSP s target))) :
    srsBody c v cur target s = .next (bodyState c v cur target spsrv s) :=
  (srsBody_next_iff ..).mpr ⟨spsrv, h, hs, rfl⟩

/-- The state after a completed UNKNOWN_STORE (40_srs.md R113). -/
def unknownStoreState (c : EncClass) (v : DecodeVars) (cur : Mode) (spsrv : Word) (s : State) :
    State :=
  let s' := setMem (useDraws s 1)
    (pairMem (useDraws s 1) (Config.freeWord s.draws) (readLR s cur) spsrv)
  complete c (if v.wback then scrambleRegs s' else s')

theorem srsUnknownStore_next_iff (c : EncClass) (v : DecodeVars) (cur : Mode) (s t : State) :
    srsUnknownStore c v cur s = .next t ↔
      ∃ spsrv, readSPSR s cur = some spsrv ∧
        (overlapsProgram s.program (Config.freeWord s.draws) = false ∧
          memAdmit s.cfg (Config.freeWord s.draws) 4 true = true ∧
          memAdmit s.cfg (Config.freeWord s.draws + 4#32) 4 true = true) ∧
        t = unknownStoreState c v cur spsrv s := by
  unfold srsUnknownStore refuseBadCurrentMode
  cases h : readSPSR s cur with
  | none => simp
  | some spsrv =>
    simp only [andThen_next_iff, storePair_next_iff, Host.Outcome.next.injEq, Option.some.injEq,
      exists_eq_left', unknownStoreState, useDraws_program, useDraws_cfg]
    constructor
    · rintro ⟨s', ⟨hs, rfl⟩, rfl⟩
      exact ⟨hs, rfl⟩
    · rintro ⟨hs, rfl⟩
      exact ⟨_, ⟨hs, rfl⟩, rfl⟩

/-! ### Where the stores cannot be made -/

/-- The raises of a store that cannot be made: of the address LR would go to, or a DataAbort. -/
def storeFault (s : State) (address : Word) (f : Fault) : Prop :=
  f = .alignmentFault s.pc address ∨ ∃ x, f = .dataAbort s.pc x (abortState s address)

theorem storePair_fault_cases {s : State} {address lrv spsrv : Word} {f : Fault}
    (h : storePair s address lrv spsrv = .fault f) :
    ∃ x, f = .dataAbort s.pc x (abortState s address) := by
  unfold storePair refuseStoreToProgram raiseDataAbort at h
  split at h
  · cases h
  · split at h
    · cases h
      exact ⟨_, rfl⟩
    · split at h
      · cases h
        exact ⟨_, rfl⟩
      · cases h

/-- An instruction whose continuation only completes raises what its first part raises. -/
theorem andThen_next_fault {o : Result} {g : State → State} {f : Fault}
    (h : andThen o (fun s => .next (g s)) = .fault f) : o = .fault f := by
  cases o <;> simp [andThen] at h ⊢
  exact h

theorem srsBody_fault_cases {c : EncClass} {v : DecodeVars} {cur target : Mode} {s : State}
    {f : Fault} (h : srsBody c v cur target s = .fault f) :
    storeFault s (storeAddress v (readSP s target)) f := by
  unfold srsBody at h
  split at h
  · cases h
  · have hf := andThen_next_fault h
    unfold storePairAligned raiseAlignmentFault at hf
    split at hf
    · cases hf
      exact .inl rfl
    · exact .inr (storePair_fault_cases hf)

theorem srsUnknownStore_fault_cases {c : EncClass} {v : DecodeVars} {cur : Mode} {s : State}
    {f : Fault} (h : srsUnknownStore c v cur s = .fault f) :
    ∃ x, f = .dataAbort s.pc x (abortState (useDraws s 1) (Config.freeWord s.draws)) := by
  unfold srsUnknownStore at h
  split at h
  · cases h
  · exact storePair_fault_cases (andThen_next_fault h)

/-- The state of an abort differs in memory at the 8 target bytes alone. -/
theorem readByte_abortState_outside (s : State) (address a : Word) (h : outside8 address a) :
    readByte (abortState s address) a = readByte s a := by
  simp only [readByte, abortState_mem]
  apply memGet_storeBytes_outside
  simpa [drawBytes] using h

/-! ### The whole SRS -/

/-- Every way an SRS can complete (40_srs.md R113, R115): with no effect but on `pc` and the
condition input; by the operation proper on a specified mode that passed the checks; by OWN_STACK;
or by UNKNOWN_STORE. -/
theorem srs_next_cases {e : Encoding} {W : Bool} {sb : BitVec 15} {mode : BitVec 5} {s t : State}
    (h : srs e W sb mode s = .next t) :
    t = complete (classOf e) s ∨
    (∃ cur target spsrv, currentMode s = some cur ∧ srsCheck s cur mode = .proceed target ∧
      readSPSR s cur = some spsrv ∧
      storable s (storeAddress (decodeLine (classOf e) W) (readSP s target)) ∧
      t = bodyState (classOf e) (decodeLine (classOf e) W) cur target spsrv s) ∨
    (∃ cur spsrv, currentMode s = some cur ∧
      srsCheck s cur mode = .unpredictable .badMode ∧ s.cfg.cu4 = .ownStack ∧
      readSPSR s cur = some spsrv ∧
      storable s (storeAddress (decodeLine (classOf e) W) (readSP s cur)) ∧
      t = bodyState (classOf e) (decodeLine (classOf e) W) cur cur spsrv s) ∨
    (∃ cur spsrv, currentMode s = some cur ∧
      srsCheck s cur mode = .unpredictable .badMode ∧ s.cfg.cu4 = .unknownStore ∧
      readSPSR s cur = some spsrv ∧
      overlapsProgram s.program (Config.freeWord s.draws) = false ∧
      t = unknownStoreState (classOf e) (decodeLine (classOf e) W) cur spsrv s) := by
  unfold srs at h
  cases hc : currentMode s with
  | none => simp [hc, refuseBadCurrentMode] at h
  | some cur =>
    simp only [hc] at h
    split at h
    · simp [resolveUnpredictable, raiseUnpredictable] at h
    · split at h
      · left
        simpa using h.symm
      · cases hk : srsCheck s cur mode with
        | undefined => simp [hk, srsAfterChecks, raiseUndefined] at h
        | monitorModeTrap => simp [hk, srsAfterChecks, raiseMonitorModeTrap] at h
        | proceed target =>
          simp only [hk, srsAfterChecks] at h
          obtain ⟨spsrv, h1, h2, h3⟩ := (srsBody_next_iff ..).mp h
          exact .inr (.inl ⟨cur, target, spsrv, rfl, hk, h1, h2, h3⟩)
        | unpredictable case =>
          simp only [hk, srsAfterChecks] at h
          have basic : ∀ choice k, resolveCu (classOf e) choice k s = .next t →
              t = complete (classOf e) s := by
            intro choice k hr
            cases choice <;> simp [resolveCu, raiseUnpredictable, raiseUndefined] at hr
            exact hr.symm
          cases case with
          | shouldBe => simp [resolveUnpredictable, raiseUnpredictable] at h
          | userOrSystem => exact .inl (basic _ _ h)
          | hypMode => exact .inl (basic _ _ h)
          | monitorMode => exact .inl (basic _ _ h)
          | badMode =>
            simp only [resolveUnpredictable, resolveBadMode] at h
            cases h4 : s.cfg.cu4 with
            | keep => simp [h4, raiseUnpredictable] at h
            | undef => simp [h4, raiseUndefined] at h
            | nop =>
              left
              simpa [h4] using h.symm
            | ownStack =>
              simp only [h4] at h
              obtain ⟨spsrv, h1, h2, h3⟩ := (srsBody_next_iff ..).mp h
              exact .inr (.inr (.inl ⟨cur, spsrv, rfl, hk, rfl, h1, h2, h3⟩))
            | unknownStore =>
              simp only [h4] at h
              obtain ⟨spsrv, h1, h2, h3⟩ := (srsUnknownStore_next_iff ..).mp h
              exact .inr (.inr (.inr ⟨cur, spsrv, rfl, hk, rfl, h1, h2.1, h3⟩))

/-- Every way an SRS can raise (60_exceptions.md R140, R147): the should-be bits; the answer of a check;
a CONSTRAINED UNPREDICTABLE case that is kept or resolved as UNDEF; or a store that cannot be made,
of the operation proper, of OWN_STACK or of UNKNOWN_STORE. -/
theorem srs_fault_cases {e : Encoding} {W : Bool} {sb : BitVec 15} {mode : BitVec 5} {s : State}
    {f : Fault} (h : srs e W sb mode s = .fault f) :
    ∃ cur, currentMode s = some cur ∧
      ((sb ≠ e.shouldBe ∧ f = .unpredictable s.pc .shouldBe) ∨
       (sb = e.shouldBe ∧ condPassed (classOf e) s = true ∧
        ((srsCheck s cur mode = .undefined ∧ f = .undefined s.pc none) ∨
         (srsCheck s cur mode = .monitorModeTrap ∧ f = .monitorModeTrap s.pc) ∨
         (∃ k, srsCheck s cur mode = .unpredictable k ∧
           (f = .unpredictable s.pc k ∨ f = .undefined s.pc (some k))) ∨
         (∃ target, (srsCheck s cur mode = .proceed target ∨
             srsCheck s cur mode = .unpredictable .badMode ∧ s.cfg.cu4 = .ownStack ∧ target = cur) ∧
           storeFault s (storeAddress (decodeLine (classOf e) W) (readSP s target)) f) ∨
         (srsCheck s cur mode = .unpredictable .badMode ∧ s.cfg.cu4 = .unknownStore ∧
           ∃ x, f = .dataAbort s.pc x (abortState (useDraws s 1) (Config.freeWord s.draws)))))) := by
  unfold srs at h
  cases hc : currentMode s with
  | none => simp [hc, refuseBadCurrentMode] at h
  | some cur =>
    refine ⟨cur, rfl, ?_⟩
    simp only [hc] at h
    split at h
    · next hsb => exact .inl ⟨hsb, by simpa [resolveUnpredictable, raiseUnpredictable] using h.symm⟩
    · next hsb =>
      split at h
      · cases h
      · next hcp =>
        refine .inr ⟨by simpa using hsb, by simpa using hcp, ?_⟩
        have basic : ∀ choice k, srsCheck s cur mode = .unpredictable k →
            resolveCu (classOf e) choice k s = .fault f →
            ∃ k, srsCheck s cur mode = .unpredictable k ∧
              (f = .unpredictable s.pc k ∨ f = .undefined s.pc (some k)) := by
          intro choice k hk hr
          cases choice <;> simp [resolveCu, raiseUnpredictable, raiseUndefined] at hr
          · exact ⟨k, hk, .inl hr.symm⟩
          · exact ⟨k, hk, .inr hr.symm⟩
        cases hk : srsCheck s cur mode with
        | undefined =>
          left
          simpa [hk, srsAfterChecks, raiseUndefined] using h.symm
        | monitorModeTrap =>
          right; left
          simpa [hk, srsAfterChecks, raiseMonitorModeTrap] using h.symm
        | proceed target =>
          simp only [hk, srsAfterChecks] at h
          exact .inr (.inr (.inr (.inl ⟨target, .inl rfl, srsBody_fault_cases h⟩)))
        | unpredictable case =>
          rw [hk] at basic
          simp only [hk, srsAfterChecks] at h
          cases case with
          | shouldBe =>
            exact .inr (.inr (.inl ⟨_, rfl, .inl
              (by simpa [resolveUnpredictable, raiseUnpredictable] using h.symm)⟩))
          | userOrSystem => exact .inr (.inr (.inl (basic _ _ rfl h)))
          | hypMode => exact .inr (.inr (.inl (basic _ _ rfl h)))
          | monitorMode => exact .inr (.inr (.inl (basic _ _ rfl h)))
          | badMode =>
            simp only [resolveUnpredictable, resolveBadMode] at h
            cases h4 : s.cfg.cu4 with
            | keep =>
              exact .inr (.inr (.inl ⟨_, rfl, .inl (by simpa [h4, raiseUnpredictable] using h.symm)⟩))
            | undef =>
              exact .inr (.inr (.inl ⟨_, rfl, .inr (by simpa [h4, raiseUndefined] using h.symm)⟩))
            | nop => simp [h4] at h
            | ownStack =>
              simp only [h4] at h
              exact .inr (.inr (.inr (.inl ⟨cur, .inr ⟨rfl, rfl, rfl⟩, srsBody_fault_cases h⟩)))
            | unknownStore =>
              simp only [h4] at h
              exact .inr (.inr (.inr (.inr ⟨rfl, rfl, srsUnknownStore_fault_cases h⟩)))

/-- `exec` is `srs` of the instruction's encoding and fields. -/
theorem exec_eq_srs (i : Instr) (s : State) : exec i s = srs i.encoding i.W i.sb i.mode s := by
  cases i <;> rfl

/-- `exec` of an encoding's instruction is `srs` of that encoding. -/
theorem exec_instr (e : Encoding) (W : Bool) (sb : BitVec 15) (mode : BitVec 5) (s : State) :
    exec (e.instr W sb mode) s = srs e W sb mode s := by
  cases e <;> rfl

/-- The checks let a usable specified mode through. -/
theorem srsCheck_proceed {s : State} {cur target : Mode} (hel : s.EL ≠ el2)
    (hcur : savesReturnState cur) (ht : usableTarget s target) :
    srsCheck s cur target.num = .proceed target := by
  obtain ⟨h1, h2, h3⟩ := ht
  have hc : ¬(cur = .usr ∨ cur = .sys) := by cases cur <;> simp_all [savesReturnState]
  unfold srsCheck
  rw [if_neg hel, if_neg hc, Mode.ofNum_num]
  cases target <;> simp_all [checkMonitor, badMode]

/-- The specified mode of checks that pass, and what they have established. -/
theorem srsCheck_proceed_inv {s : State} {cur target : Mode} {mode : BitVec 5}
    (h : srsCheck s cur mode = .proceed target) :
    s.EL ≠ el2 ∧ ¬(cur = .usr ∨ cur = .sys) ∧ mode = target.num ∧ usableTarget s target := by
  unfold srsCheck at h
  split at h
  · simp at h
  · next hel =>
    split at h
    · simp at h
    · next hcur =>
      refine ⟨hel, hcur, ?_⟩
      cases hm : Mode.ofNum mode with
      | none => simp [hm] at h
      | some m =>
        have hn := Mode.num_of_ofNum hm
        cases m <;> simp only [hm] at h
        case hyp => simp at h
        case mon =>
          unfold checkMonitor at h
          split at h
          · simp at h
          · split at h
            · simp at h
            · cases h
              simp_all [usableTarget]
        all_goals
          split at h
          · simp at h
          · next hb =>
            cases h
            subst hn
            exact ⟨rfl, by simp, by simp, fun _ => by simpa [badMode] using hb⟩

/-- The specified mode of checks that answer case 4. -/
theorem srsCheck_badMode_inv {s : State} {cur : Mode} {mode : BitVec 5}
    (h : srsCheck s cur mode = .unpredictable .badMode) : isCaseFour s.cfg mode := by
  unfold srsCheck at h
  split at h
  · simp at h
  · split at h
    · simp at h
    · cases hm : Mode.ofNum mode with
      | none =>
        refine ⟨by simp [badMode, implemented, hm], ?_, ?_⟩ <;>
          · rintro rfl
            exact absurd hm (by decide)
      | some m =>
        have hn := Mode.num_of_ofNum hm
        cases m <;> simp only [hm] at h
        case hyp => simp at h
        case mon =>
          unfold checkMonitor at h
          split at h
          · simp at h
          · split at h <;> simp at h
        all_goals
          split at h
          · next hb => subst hn; exact ⟨hb, by decide, by decide⟩
          · simp at h

/-- A completed SRS from a ready state (70_reset_and_hazards.md R171). -/
theorem srs_of_ready {e : Encoding} {W : Bool} {cur target : Mode} {s : State} {spsrv : Word}
    (h : ready s cur target (storeAddress (decodeLine (classOf e) W) (readSP s target)))
    (hspsr : readSPSR s cur = some spsrv) (hcond : condPassed (classOf e) s = true) :
    srs e W e.shouldBe target.num s =
      .next (bodyState (classOf e) (decodeLine (classOf e) W) cur target spsrv s) := by
  obtain ⟨hm, hel, hsave, ht, hst⟩ := h
  have hcur := currentMode_of_num hm fun e => absurd e (savesReturnState_ne_hyp hsave)
  simp only [srs, hcur, ne_eq, not_true, if_false, hcond, Bool.not_true, Bool.false_eq_true,
    srsCheck_proceed hel hsave ht, srsAfterChecks]
  exact srsBody_of_storable hspsr hst

end Sys2Proof.Machine
end

