-- ==== Sys2Proof/Tests/Slice0.lean ====
section
/-! SUPPORT. Tests. Expected results are the spec's: 40_srs.md's worked examples, 30_encoding.md R71 to
R89 and the vectors of 95_test_vectors.md, named in each comment. Then the witnesses: for every
statement with hypotheses, a state and operands that meet them all. -/

namespace Sys2Proof.Tests

open Sys2Proof Sys2Proof.Machine

/-! ### WellFormed refuses an ill-formed term for each check -/

/-- 95_test_vectors.md V2: F96E0513, bits 19:16 = 1110. -/
theorem test_wf_refuses_rn_of_A1 : (Instr.srsdbA1 true 0b111000000101000#15 0x13#5).wf = false := by
  decide

/-- V2: F96D0533, bit 5 = 1. -/
theorem test_wf_refuses_op_of_A1 : (Instr.srsdbA1 true 0b110100000101001#15 0x13#5).wf = false := by
  decide

/-- V2: E82D8013, bit 14 = 0. -/
theorem test_wf_refuses_M_of_T1 : (Instr.srsdbT1 true 0b110110000000000#15 0x13#5).wf = false := by
  decide

/-- The A1 should-be bits are not those of T2 (30_encoding.md R81). -/
theorem test_wf_refuses_A1_bits_in_T2 :
    (Instr.srsiaT2 true 0b110100000101000#15 0x13#5).wf = false := by decide

theorem test_wf_accepts_canonical :
    (Instr.srsdbA1 true 0b110100000101000#15 0x13#5).wf = true ∧
    (Instr.srsdbT1 true 0b110111000000000#15 0x13#5).wf = true := by decide

/-! ### Decoding is right: words written out from the diagrams of 30_encoding.md R71 to R73 -/

/-- R71: 1111100 P=0 U=0 1 W=0 0 1101 00000101000 10011 (SRSDA SP, #19, R89). -/
theorem test_decode_srsda :
    decodeWord .a32 0b11111000010011010000010100010011#32 =
      some (.srsdaA1 false 0b110100000101000#15 0b10011#5) := by decide

/-- R71: P=1 U=0 W=1 (SRSDB SP!, #19, R89). -/
theorem test_decode_srsdb :
    decodeWord .a32 0b11111001011011010000010100010011#32 =
      some (.srsdbA1 true 0b110100000101000#15 0b10011#5) := by decide

/-- R71: P=0 U=1 W=1, mode 11111 (SRSIA SP!, #31, R89). -/
theorem test_decode_srsia :
    decodeWord .a32 0b11111000111011010000010100011111#32 =
      some (.srsiaA1 true 0b110100000101000#15 0b11111#5) := by decide

/-- R71: P=1 U=1 W=0, mode 10111 (SRSIB SP, #23, R89). -/
theorem test_decode_srsib :
    decodeWord .a32 0b11111001110011010000010100010111#32 =
      some (.srsibA1 false 0b110100000101000#15 0b10111#5) := by decide

/-- R72: 1110100 00 0 W=1 0 1101, then 1 1 000000000 10011 (E82D C013, R89). -/
theorem test_decode_srsdb_T1 :
    decodeWord .t32 0b11101000001011011100000000010011#32 =
      some (.srsdbT1 true 0b110111000000000#15 0b10011#5) := by decide

/-- R73: 1110100 11 0 W=0 0 1101, then 1 1 000000000 11011 (E98D C01B, R89). -/
theorem test_decode_srsia_T2 :
    decodeWord .t32 0b11101001100011011100000000011011#32 =
      some (.srsiaT2 false 0b110111000000000#15 0b11011#5) := by decide

/-- V2: words that are no SRS; the last two are SRS words of the other set. -/
theorem test_decode_refuses :
    decodeWord .a32 0xE1A00000#32 = none ∧ decodeWord .a32 0xF97D0513#32 = none ∧
    decodeWord .t32 0xE81DC013#32 = none ∧ decodeWord .t32 0xE88DC013#32 = none ∧
    decodeWord .t32 0xF96D0513#32 = none ∧ decodeWord .a32 0xE82DC013#32 = none := by decide

/-- V3: byte images in memory. -/
theorem test_byte_images :
    encode (.srsdbA1 true 0b110100000101000#15 0x13#5) = [0x13#8, 0x05#8, 0x6D#8, 0xF9#8] ∧
    encode (.srsiaA1 false 0b110100000101000#15 0x1F#5) = [0x1F#8, 0x05#8, 0xCD#8, 0xF8#8] ∧
    encode (.srsdbT1 true 0b110111000000000#15 0x13#5) = [0x2D#8, 0xE8#8, 0x13#8, 0xC0#8] ∧
    encode (.srsiaT2 true 0b110111000000000#15 0x1B#5) = [0xAD#8, 0xE9#8, 0x1B#8, 0xC0#8] := by
  decide

/-- R89: `SRSIA SP!, #31`; R83: SRSFD is SRSDB; R82: T32 rejects SRSIB; R84, R85: `<c>` and `<q>`. -/
theorem test_assemble :
    (assemble .a32 ⟨.srsia, none, none, true, 31⟩).map Instr.encodeWord = some 0xF8ED051F#32 ∧
    (assemble .t32 ⟨.srsfd, some .conditional, some .wide, true, 19⟩).map Instr.encodeWord =
      some 0xE82DC013#32 ∧
    assemble .t32 ⟨.srsib, none, none, false, 19⟩ = none ∧
    assemble .a32 ⟨.srsdb, some .conditional, none, false, 19⟩ = none ∧
    assemble .a32 ⟨.srsdb, none, some .narrow, false, 19⟩ = none ∧
    assemble .a32 ⟨.srsdb, none, none, false, 32⟩ = none := by decide

/-! ### States -/

/-- E0, the start state of 40_srs.md's worked examples: IRQ mode, SP_svc = 0x8000. -/
def e0 : State :=
  { State.reset with
    M := 0x12#5
    sp := { State.reset.sp with svc := 0x8000#32, irq := 0x4000#32 }
    lr := { State.reset.lr with irq := 0x00010004#32 }
    spsr := { State.reset.spsr with irq := 0x60000092#32 } }

/-- E0 in T32. -/
def e0Thumb : State :=
  { e0 with iset := .t32 }

/-- V9 i: Supervisor at EL3, Secure, EL3 using AArch32, SP_mon = 0x9000. -/
def secure3 : State :=
  { State.reset with
    EL := 0b11#2
    ss := .secure
    cfg := { State.reset.cfg with haveEL3 := true }
    sp := { State.reset.sp with mon := 0x9000#32 } }

/-- E0 with a case-4 choice. -/
def withCu4 (c : CuBadModeChoice) : State :=
  { e0 with cfg := { e0.cfg with cu4 := c } }

/-- E0 with every CONSTRAINED UNPREDICTABLE case kept as a fault (92_eei_decisions.md D8). -/
def e0Keep : State :=
  { e0 with cfg := { e0.cfg with cu1 := .keep, cu2 := .keep, cu3 := .keep, cu4 := .keep } }

/-- E0 with another stack pointer for Supervisor mode. -/
def withSvc (a : Word) : State :=
  { e0 with sp := { e0.sp with svc := a } }

/-- The should-be bits of A1 and of T1 and T2 (30_encoding.md R81). -/
def sbA : BitVec 15 := 0b110100000101000#15

def sbT : BitVec 15 := 0b110111000000000#15

/-- The word of little-endian bytes at an address, with the SP of Supervisor mode and `pc`: what the
worked examples name. -/
def readBack (o : Result) (a : Word) : Option (Word × Word × Word) :=
  (nextOf o).map fun t =>
    (readByte t (a + 3#32) ++ readByte t (a + 2#32) ++ readByte t (a + 1#32) ++ readByte t a,
      t.sp.svc, t.pc)

/-! ### One step of each instruction (40_srs.md R116 to R121, 95_test_vectors.md V4 to V8) -/

/-- R116: SRSDA SP!, #19 from E0. -/
theorem test_srsda :
    readBack (exec (.srsdaA1 true sbA 0x13#5) e0) 0x7FFC#32 =
      some (0x00010004#32, 0x7FF8#32, 0x1004#32) ∧
    readBack (exec (.srsdaA1 true sbA 0x13#5) e0) 0x8000#32 =
      some (0x60000092#32, 0x7FF8#32, 0x1004#32) := by decide

/-- R117: SRSDB SP!, #19 from E0, run by a step. -/
theorem test_srsdb :
    readBack (step (e0.withFetchWord 32 0xF96D0513)) 0x7FF8#32 =
      some (0x00010004#32, 0x7FF8#32, 0x1004#32) ∧
    readBack (step (e0.withFetchWord 32 0xF96D0513)) 0x7FFC#32 =
      some (0x60000092#32, 0x7FF8#32, 0x1004#32) := by decide

/-- V5: SRSDB SP!, #19 with SP_svc = 4 straddles the top of the address space. -/
theorem test_srsdb_wraps :
    readBack (exec (.srsdbA1 true sbA 0x13#5) (withSvc 4#32)) 0xFFFFFFFC#32 =
      some (0x00010004#32, 0xFFFFFFFC#32, 0x1004#32) ∧
    readBack (exec (.srsdbA1 true sbA 0x13#5) (withSvc 4#32)) 0#32 =
      some (0x60000092#32, 0xFFFFFFFC#32, 0x1004#32) := by decide

/-- R118: SRSIA SP!, #19 from E0. -/
theorem test_srsia :
    readBack (exec (.srsiaA1 true sbA 0x13#5) e0) 0x8000#32 =
      some (0x00010004#32, 0x8008#32, 0x1004#32) ∧
    readBack (exec (.srsiaA1 true sbA 0x13#5) e0) 0x8004#32 =
      some (0x60000092#32, 0x8008#32, 0x1004#32) := by decide

/-- R119: SRSIB SP!, #19 from E0; V4: without `!` SP stays. -/
theorem test_srsib :
    readBack (exec (.srsibA1 true sbA 0x13#5) e0) 0x8004#32 =
      some (0x00010004#32, 0x8008#32, 0x1004#32) ∧
    readBack (exec (.srsibA1 false sbA 0x13#5) e0) 0x8008#32 =
      some (0x60000092#32, 0x8000#32, 0x1004#32) := by decide

/-- R120: T32 SRSDB SP!, #19 from E0, run by a step. -/
theorem test_srsdb_T1 :
    readBack (step (e0Thumb.withFetchWord 32 0xE82DC013)) 0x7FF8#32 =
      some (0x00010004#32, 0x7FF8#32, 0x1004#32) := by decide

/-- R121: T32 SRSIA SP!, #19 from E0. -/
theorem test_srsia_T2 :
    readBack (step (e0Thumb.withFetchWord 32 0xE9ADC013)) 0x8004#32 =
      some (0x60000092#32, 0x8008#32, 0x1004#32) := by decide

/-- V6: the bytes of 0x00010004 at 0x7FF8 in big-endian order are 00 01 00 04. -/
theorem test_big_endian_bytes :
    (nextOf (exec (.srsdbA1 true sbA 0x13#5) { e0 with cfg := { e0.cfg with bigEndian := true } })).map
      (fun t => (readByte t 0x7FF8#32, readByte t 0x7FF9#32, readByte t 0x7FFB#32,
        readByte t 0x7FFC#32)) = some (0x00#8, 0x01#8, 0x04#8, 0x60#8) := by decide

/-! ### The checks in order (95_test_vectors.md V9) -/

/-- V9 c, d: at EL2 UNDEFINED, whatever the mode field. -/
theorem test_undefined_at_EL2 :
    faultOf (exec (.srsdbA1 true sbA 0x1A#5) { e0Keep with M := 0x1A#5, EL := 0b10#2 }) =
      some (.undefined 0x1000#32 none) := by decide

/-- V9 b, e, f, j, o: cases 1 to 4 and 0 kept as faults. -/
theorem test_cases_kept_as_faults :
    faultOf (exec (.srsdbA1 true sbA 0x16#5) { e0Keep with M := 0x1F#5 }) =
      some (.unpredictable 0x1000#32 .userOrSystem) ∧
    faultOf (exec (.srsdbA1 true sbA 0x1A#5) e0Keep) =
      some (.unpredictable 0x1000#32 .hypMode) ∧
    faultOf (exec (.srsdbA1 true sbA 0x16#5) e0Keep) =
      some (.unpredictable 0x1000#32 .monitorMode) ∧
    faultOf (exec (.srsdbA1 true sbA 0x05#5) e0Keep) =
      some (.unpredictable 0x1000#32 .badMode) ∧
    faultOf (exec (.srsdbA1 true 0b111000000101000#15 0x13#5) e0Keep) =
      some (.unpredictable 0x1000#32 .shouldBe) := by decide

/-- V9 h: the trap to EL3. -/
theorem test_monitor_trap :
    faultOf (exec (.srsdbA1 true sbA 0x16#5)
      { secure3 with EL := 0b01#2, cfg := { secure3.cfg with el3AArch32 := false } }) =
      some (.monitorModeTrap 0x1000#32) := by decide

/-- V9 m, p, q: alignment, no SRS word, no current mode. -/
theorem test_alignment_and_refusals :
    faultOf (exec (.srsdbA1 true sbA 0x13#5) (withSvc 0x8002#32)) =
      some (.alignmentFault 0x1000#32 0x7FFA#32) ∧
    refusalOf (step (e0.withFetchWord 32 0xE1A00000)) =
      some (.notSRS 0x1000#32 0xE1A00000#32) ∧
    refusalOf (exec (.srsdbA1 true sbA 0x13#5) { e0 with M := 0x05#5 }) =
      some (.badCurrentMode 0x1000#32 0x05#5) := by decide

/-- V9 n, with the second word refused: DataAbort(0x7FFC), SP_svc stays 0x8000. -/
theorem test_data_abort :
    (match faultOf (exec (.srsdbA1 true sbA 0x13#5)
        { e0 with cfg := { e0.cfg with memDeny := [⟨0x7FFC#32, 0x7FFC#32, 4, true⟩] } }) with
      | some (.dataAbort p x after) => some (p, x, after.sp.svc)
      | _ => none) = some (0x1000#32, 0x7FFC#32, 0x8000#32) := by decide

/-- V9 s: the UNDEFINED test is inside the condition gate. -/
theorem test_condition_gate :
    (nextOf (exec (.srsdbT1 true sbT 0x1B#5)
      { e0Thumb with M := 0x1A#5, EL := 0b10#2, condInputs := [false, true] })) =
      some { e0Thumb with M := 0x1A#5, EL := 0b10#2, pc := 0x1004#32, condInputs := [true] } := by
  decide

/-- 95_test_vectors.md P5: a store that would hit the program. -/
theorem test_store_to_program :
    refusalOf (step (State.withFetchWord { e0 with M := 0x11#5, sp := { e0.sp with fiq := 0x1008#32 } }
      32 0xF96D0511)) = some (.storeToProgram 0x1000#32 0x1000#32) := by decide

/-- V10: case 4 as OWN_STACK stores to the current mode's stack (here IRQ's, 0x4000). -/
theorem test_own_stack :
    (nextOf (exec (.srsdbA1 true sbA 0x05#5) (withCu4 .ownStack))).map
      (fun t => (t.sp.irq, t.sp.svc, t.pc, readByte t 0x3FF8#32, readByte t 0x3FFC#32)) =
      some (0x3FF8#32, 0x8000#32, 0x1004#32, 0x04#8, 0x92#8) := by decide

/-! ### Witnesses: the hypotheses of each statement are met together -/

theorem witness_EncodeOfDecodeIsTheBytes :
    (decode .t32 [0x2D#8, 0xE8#8, 0x13#8, 0xC0#8, 0xFF#8]).toOption =
      some (.srsdbT1 true sbT 0x13#5, [0xFF#8]) := by decide

theorem witness_DecodingFollowsTheOpcodeTable :
    (0xF84D0500#32 &&& 0xFFD00000#32 : Word) = Table.matchValue .srsdaA1 ∧
    (0xE9ADC01F#32 &&& 0xFFD00000#32 : Word) = Table.matchValue .srsT2 ∧
    decodeWord .a32 0xF84D0500#32 = some (.srsdaA1 false sbA 0x00#5) ∧
    decodeWord .t32 0xE9ADC01F#32 = some (.srsiaT2 true sbT 0x1F#5) := by decide

theorem witness_NoWordIsAnInstructionInTwoSets :
    decodeWord .a32 0xF96D0513#32 = some (.srsdbA1 true sbA 0x13#5) ∧
    decodeWord .t32 0xE82DC013#32 = some (.srsdbT1 true sbT 0x13#5) := by decide

theorem witness_AssembleAndDisassembleAgree :
    (Instr.srsibA1 false sbA 0x1F#5).wf = true ∧
    assemble .a32 ⟨.srsfa, none, none, false, 31⟩ = some (.srsibA1 false sbA 0x1F#5) := by decide

/-- SrsdaStoresAndCompletes, SrsdbStoresAndCompletes, SrsiaStoresAndCompletes,
SrsibStoresAndCompletes: the ready states, for A1 and (with an input or without) for T32. -/
theorem witness_StoresAndCompletes :
    ready e0 .irq .svc (readSP e0 .svc - 4#32) ∧ ready e0 .irq .svc (readSP e0 .svc - 8#32) ∧
    ready e0 .irq .svc (readSP e0 .svc) ∧ ready e0 .irq .svc (readSP e0 .svc + 4#32) ∧
    readSPSR e0 .irq = some 0x60000092#32 ∧
    ready e0Thumb .irq .svc (readSP e0Thumb .svc - 8#32) ∧
    ready e0Thumb .irq .svc (readSP e0Thumb .svc) ∧ e0Thumb.condInputs.headD true = true ∧
    ({ e0Thumb with condInputs := [true] } : State).condInputs.headD true = true :=
  ⟨by decide, by decide, by decide, by decide, rfl, by decide, by decide, rfl, rfl⟩

/-- A ready state for Monitor as the specified mode, and at the wrap of the address space. -/
theorem witness_ready_at_the_edges :
    ready secure3 .svc .mon (readSP secure3 .mon - 8#32) ∧
    ready (withSvc 0#32) .irq .svc (readSP (withSvc 0#32) .svc - 4#32) ∧
    ready (withSvc 0xFFFFFFFC#32) .irq .svc (readSP (withSvc 0xFFFFFFFC#32) .svc) :=
  ⟨by decide, by decide, by decide⟩

/-- StoredWordsFollowTheAddressTable, WritebackMovesOnlyTheSpecifiedSp. -/
theorem witness_AddressTable (e : Encoding) :
    ready e0 .irq .svc (Table.lrAddress e (readSP e0 .svc)) ∧
    readSPSR e0 .irq = some 0x60000092#32 ∧ condPassed (classOf e) e0 = true := by
  cases e <;> decide

/-- CompletedSrsChangesNothingElse, ControlIsSequential, GeneralRegistersAreNeitherReadNorWritten,
HypStackPointerIsNeverWritten, MonitorBanksAreIsolated, A1IgnoresTheConditionInputs: a completing
instruction, from Non-secure IRQ mode at EL1 without EL3, and a byte outside the 8. -/
theorem witness_completing_instruction :
    (∃ t, exec (.srsdbA1 true sbA 0x13#5) e0 = .next t) ∧
    e0.cfg.cu4 ≠ .ownStack ∧ e0.cfg.cu4 ≠ .unknownStore ∧ e0.EL ≠ 0b11#2 ∧ e0.M ≠ 0b10110#5 ∧
    ¬(e0.cfg.haveEL3 = true ∧ e0.ss = .secure ∧ e0.cfg.el3AArch32 = true) ∧
    sameSpBank .usr .svc = false ∧ outside8 (readSP e0 .svc - 8#32) 0x8000#32 ∧
    (Instr.srsdbA1 true sbA 0x13#5).iset = .a32 :=
  ⟨⟨_, rfl⟩, by decide⟩

/-- OnlyTheSpecifiedSpIsRead (the other bank is the current mode's own) and
CompletedSrsChangesNothingElse, in a configuration whose case 4 is OWN_STACK. -/
theorem witness_OnlyTheSpecifiedSpIsRead :
    let s := { e0 with cfg := { e0.cfg with cu4 := .ownStack } }
    (Instr.srsdbA1 true sbA 0x13#5).mode = Mode.svc.num ∧ sameSpBank .irq .svc = false ∧
    (badMode s.cfg 0x13#5 = true → s.cfg.cu4 ≠ .ownStack ∧ s.cfg.cu4 ≠ .unknownStore) ∧
    ∃ t, exec (.srsdbA1 true sbA 0x13#5) s = .next t :=
  ⟨rfl, rfl, by decide, ⟨_, rfl⟩⟩

/-- ControlIsSequential, AbortsArePreciseInTheRegisters: a raise, and an abort. -/
theorem witness_raises :
    (∃ f, exec (.srsdbA1 true sbA 0x13#5) (withSvc 0x8002#32) = .fault f) ∧
    ∃ after, exec (.srsdbA1 true sbA 0x13#5)
      { e0 with cfg := { e0.cfg with memDeny := [⟨0x7FFC#32, 0x7FFC#32, 4, true⟩] } } =
      .fault (.dataAbort 0x1000#32 0x7FFC#32 after) :=
  ⟨⟨_, rfl⟩, ⟨_, rfl⟩⟩

theorem witness_FailedConditionOnlyMovesOn :
    let s := { e0Thumb with M := 0x10#5, EL := 0b00#2, condInputs := [false, true] }
    (currentMode s).isSome = true ∧ s.condInputs = false :: [true] := by decide

theorem witness_UserAndSystemNameOneStack :
    implemented e0.cfg 0b10000#5 = true ∧ implemented e0.cfg 0b11111#5 = true := by decide

theorem witness_ThumbFormsActAsTheirA1Forms : e0Thumb.condInputs = [] := by decide

theorem witness_UndefinedAtEl2 :
    let s := { e0 with M := 0x1A#5, EL := 0b10#2 }
    (Mode.ofNum s.M).isSome = true ∧ condPassed (classOf .srsT1) s = true ∧ s.EL = 0b10#2 := by
  decide

theorem witness_UserAndSystemModeAreCaseOne :
    ({ e0 with M := 0x10#5, EL := 0b00#2 } : State).EL ≠ 0b10#2 ∧
    ({ e0 with M := 0x1F#5 } : State).M = 0b11111#5 ∧
    ({ e0Keep with M := 0x10#5 } : State).cfg.cu1 = .keep ∧ e0.cfg.cu1 = .nop ∧
    condPassed (classOf .srsT2) e0 = true := by decide

/-- HypAsSpecifiedModeIsCaseTwo, MonitorAsSpecifiedMode (a), BadModeIsCaseFour (a number that is no
mode, and one the implementation lacks). -/
theorem witness_cases_two_to_four (e : Encoding) :
    e0.M = Mode.irq.num ∧ savesReturnState .irq ∧ e0.EL ≠ 0b10#2 ∧
    condPassed (classOf e) e0 = true ∧ e0.cfg.cu2 = .nop ∧ e0Keep.cfg.cu2 = .keep ∧
    e0.cfg.haveEL3 = false ∧ badMode e0.cfg 0x00#5 = true ∧ badMode e0.cfg 0x1E#5 = true ∧
    badMode { e0.cfg with modes := { e0.cfg.modes with fiq := false } } 0x11#5 = true ∧
    e0.cfg.cu4 = .nop ∧ e0Keep.cfg.cu4 = .keep := by
  cases e <;> decide

/-- Each case resolved as UNDEF, for the clauses of that choice. -/
theorem witness_cases_resolved_as_undefined :
    let s := { e0 with cfg := { e0.cfg with cu1 := .undef, cu2 := .undef, cu3 := .undef, cu4 := .undef } }
    faultOf (exec (.srsdbA1 true sbA 0x13#5) { s with M := 0x1F#5 }) =
      some (.undefined 0x1000#32 (some .userOrSystem)) ∧
    faultOf (exec (.srsdbA1 true sbA 0x1A#5) s) = some (.undefined 0x1000#32 (some .hypMode)) ∧
    faultOf (exec (.srsdbA1 true sbA 0x16#5) s) = some (.undefined 0x1000#32 (some .monitorMode)) ∧
    faultOf (exec (.srsdbA1 true sbA 0x05#5) s) = some (.undefined 0x1000#32 (some .badMode)) := by
  decide

/-- MonitorAsSpecifiedMode (a) outside Secure state, (b) and (c). -/
theorem witness_MonitorAsSpecifiedMode :
    secure3.M = Mode.svc.num ∧ savesReturnState .svc ∧ secure3.EL ≠ 0b10#2 ∧
    secure3.cfg.haveEL3 = true ∧ secure3.ss = .secure ∧ secure3.cfg.el3AArch32 = true ∧
    ({ secure3 with ss := .realm } : State).ss ≠ .secure ∧
    ({ secure3 with cfg := { secure3.cfg with el3AArch32 := false } } : State).cfg.el3AArch32 =
      false := by decide

/-- BadModeHoldsOfEveryNonMode: the last number below the modes, and the last that is no mode. -/
theorem witness_BadModeHoldsOfEveryNonMode :
    (0x0F#5 : BitVec 5) < 0b10000#5 ∧ badMode secure3.cfg 0x1E#5 = true ∧
    badMode { secure3.cfg with modes := { secure3.cfg.modes with mon := true } } 0x16#5 = false := by
  decide

theorem witness_OwnStackStoresToTheCurrentStack (e : Encoding) :
    let s := withCu4 .ownStack
    s.M = Mode.irq.num ∧ savesReturnState .irq ∧ s.EL ≠ 0b10#2 ∧ condPassed (classOf e) s = true ∧
    badMode s.cfg 0x05#5 = true ∧ s.cfg.cu4 = .ownStack ∧
    readSPSR s .irq = some 0x60000092#32 ∧ storable s (Table.lrAddress e (readSP s .irq)) := by
  cases e <;> decide

/-- OwnStackStopsWhereItCannotStore: a misaligned current SP; the first and the last SP whose 8 bytes
overlap a one-word program; the lower word not admitted, and only the upper. -/
theorem witness_OwnStackStopsWhereItCannotStore :
    let s (a : Word) : State :=
      ({ withCu4 .ownStack with sp := { e0.sp with irq := a } }).withFetchWord 32 0xF8ED0505
    let deny (a : Word) : Config := { (withCu4 .ownStack).cfg with memDeny := [⟨a, a, 4, true⟩] }
    ((s 0#32).M = Mode.irq.num ∧ savesReturnState .irq ∧ (s 0#32).EL ≠ 0b10#2 ∧
      condPassed (classOf .srsiaA1) (s 0#32) = true ∧ isCaseFour (s 0#32).cfg 0x05#5 ∧
      (s 0#32).cfg.cu4 = .ownStack) ∧
    aligned4 (readSP (s 0x4001#32) .irq) = false ∧ aligned4 (readSP (s 0x4003#32) .irq) = false ∧
    aligned4 (readSP (s 0xFFC#32) .irq) = true ∧
    overlapsProgram (s 0xFFC#32).program 0xFFC#32 = true ∧
    overlapsProgram (s 0x1000#32).program 0x1000#32 = true ∧
    overlapsProgram (s 0x1004#32).program 0x1004#32 = false ∧
    memAdmit (deny 0x4000#32) 0x4000#32 4 true = false ∧
    memAdmit (deny 0x4004#32) 0x4000#32 4 true = true ∧
    memAdmit (deny 0x4004#32) 0x4004#32 4 true = false :=
  ⟨by decide, by decide, by decide, by decide, by decide, by decide, by decide, by decide, by decide,
    by decide⟩

/-- UnknownStoreStopsWhereItCannotStore: a program at the free address; only the lower and only the
upper word not admitted, with no program in the way. -/
theorem witness_UnknownStoreStopsWhereItCannotStore :
    let s := withCu4 .unknownStore
    let deny (a : Word) : Config := { s.cfg with memDeny := [⟨a, a, 4, true⟩] }
    (s.M = Mode.irq.num ∧ savesReturnState .irq ∧ s.EL ≠ 0b10#2 ∧
      condPassed (classOf .srsiaA1) s = true ∧ isCaseFour s.cfg 0x05#5 ∧
      s.cfg.cu4 = .unknownStore) ∧
    overlapsProgram ⟨Config.freeWord s.draws, [0#8]⟩ (Config.freeWord s.draws) = true ∧
    overlapsProgram s.program (Config.freeWord s.draws) = false ∧
    memAdmit (deny (Config.freeWord s.draws)) (Config.freeWord s.draws) 4 true = false ∧
    memAdmit (deny (Config.freeWord s.draws + 4#32)) (Config.freeWord s.draws + 4#32) 4 true =
      false :=
  ⟨by decide, List.any_eq_true.mpr ⟨0, by decide, by simp [inProgram]⟩,
    by simp [overlapsProgram, inProgram, withCu4, e0, State.reset],
    by simp [memAdmit, denies], by simp [memAdmit, denies]⟩

/-- AbortsArePreciseInTheRegisters under OWN_STACK: an abort. -/
theorem witness_abort_of_own_stack :
    let s := withCu4 .ownStack
    let deny : Config := { s.cfg with memDeny := [⟨0x3FFC#32, 0x3FFC#32, 4, true⟩] }
    (isCaseFour deny 0x05#5 ∧ s.M = Mode.irq.num ∧ deny.cu4 = .ownStack) ∧
    ∃ x after, exec (.srsdbA1 true sbA 0x05#5) { s with cfg := deny } =
      .fault (.dataAbort 0x1000#32 x after) :=
  ⟨by decide, ⟨_, _, rfl⟩⟩

/-- AbortsArePreciseInTheRegisters under UNKNOWN_STORE: an abort. -/
theorem witness_abort_of_unknown_store :
    let deny : Config :=
      { (withCu4 .unknownStore).cfg with memDeny := [⟨Config.freeWord 0, Config.freeWord 0, 4, true⟩] }
    let s : State := { e0 with cfg := deny }
    isCaseFour deny 0x05#5 ∧
    ∃ x after, exec (.srsdbA1 true sbA 0x05#5) s = .fault (.dataAbort 0x1000#32 x after) := by
  intro deny s
  refine ⟨by decide, Config.freeWord 0, abortState (useDraws s 1) (Config.freeWord 0), ?_⟩
  have h : overlapsProgram (useDraws s 1).program (Config.freeWord 0) = false := by
    simp [overlapsProgram, inProgram, useDraws, s, e0, State.reset]
  have hd : memAdmit (useDraws s 1).cfg (Config.freeWord 0) 4 true = false := by
    simp [memAdmit, denies, useDraws, s, deny]
  show andThen (storePair (useDraws s 1) (Config.freeWord 0) 0x00010004#32 0x60000092#32) _ = _
  rw [storePair, if_neg (by rw [h]; decide), if_pos (by rw [hd]; rfl)]
  rfl

theorem witness_UnknownStoreKeepsTheInaccessible :
    let s := withCu4 .unknownStore
    (s.M = Mode.irq.num ∧ savesReturnState .irq ∧ s.EL ≠ 0b10#2 ∧
      condPassed (classOf .srsT1) s = true ∧ badMode s.cfg 0x05#5 = true ∧
      s.cfg.cu4 = .unknownStore ∧ readSPSR s .irq = some 0x60000092#32 ∧
      accessible s .mon = false ∧ accessible s .hyp = false) ∧
    overlapsProgram s.program (Config.freeWord s.draws) = false ∧
    memAdmit s.cfg (Config.freeWord s.draws) 4 true = true ∧
    memAdmit s.cfg (Config.freeWord s.draws + 4#32) 4 true = true :=
  ⟨by decide, by simp [overlapsProgram, inProgram, withCu4, e0, State.reset], rfl, rfl⟩

theorem witness_ViolatedShouldBeBits :
    (currentMode e0).isSome = true ∧ (0#15 : BitVec 15) ≠ Encoding.shouldBe .srsdaA1 ∧
    (0#15 : BitVec 15) ≠ Encoding.shouldBe .srsT2 := by decide

theorem witness_MeaninglessCurrentMode :
    (0x0F#5 : BitVec 5) < 0b10000#5 ∧
    ({ e0 with M := 0x1A#5 } : State).M = 0x1A#5 ∧ e0.EL ≠ 0b10#2 := by decide

/-- MisalignedBaseFaults, at each misaligned residue's edge. -/
theorem witness_MisalignedBaseFaults :
    e0.M = Mode.irq.num ∧ savesReturnState .irq ∧ usableTarget (withSvc 0x8001#32) .svc ∧
    aligned4 (readSP (withSvc 0x8001#32) .svc) = false ∧
    aligned4 (readSP (withSvc 0x8003#32) .svc) = false := by decide

/-- StoreToProgramIsRefused: the first and the last address that overlaps a one-word program. -/
theorem witness_StoreToProgramIsRefused :
    let s (a : Word) := (withSvc a).withFetchWord 32 0xF8ED0513
    usableTarget (s 0x1000#32) .svc ∧ aligned4 (readSP (s 0xFFC#32) .svc) = true ∧
    overlapsProgram (s 0xFFC#32).program (Table.lrAddress .srsiaA1 (readSP (s 0xFFC#32) .svc)) = true ∧
    overlapsProgram (s 0x1000#32).program (Table.lrAddress .srsiaA1 (readSP (s 0x1000#32) .svc)) =
      true ∧
    overlapsProgram (s 0xFF8#32).program (Table.lrAddress .srsiaA1 (readSP (s 0xFF8#32) .svc)) =
      false ∧
    overlapsProgram (s 0x1004#32).program (Table.lrAddress .srsiaA1 (readSP (s 0x1004#32) .svc)) =
      false := by decide

/-- UnadmittedStoreAborts: the lower word refused, and only the upper. -/
theorem witness_UnadmittedStoreAborts :
    let s (d : DenyRule) : State := { e0 with cfg := { e0.cfg with memDeny := [d] } }
    let lo := s ⟨0x7FF8#32, 0x7FF8#32, 4, true⟩
    let hi := s ⟨0x7FFC#32, 0x7FFF#32, 4, true⟩
    usableTarget lo .svc ∧ overlapsProgram lo.program 0x7FF8#32 = false ∧
    memAdmit lo.cfg (Table.lrAddress .srsdbA1 (readSP lo .svc)) 4 true = false ∧
    memAdmit hi.cfg (Table.lrAddress .srsdbA1 (readSP hi .svc)) 4 true = true ∧
    memAdmit hi.cfg (Table.spsrAddress .srsdbA1 (readSP hi .svc)) 4 true = false := by decide

theorem witness_OnlyPrivilegedWordsAreAskedFor :
    (∀ d ∈ [DenyRule.mk 0#32 0xFFFFFFFF#32 4 false, DenyRule.mk 0#32 0xFFFFFFFF#32 1 true],
      d.size ≠ 4 ∨ d.priv = false) ∧
    ∃ t, exec (.srsdbA1 true sbA 0x13#5) e0 = .next t :=
  ⟨by decide, ⟨_, rfl⟩⟩

theorem witness_SrsCompletesExactlyWhenReady (e : Encoding) :
    currentMode e0Keep = some .irq ∧ condPassed (classOf e) e0Keep = true ∧
    e0Keep.cfg.cu1 = .keep ∧ e0Keep.cfg.cu2 = .keep ∧ e0Keep.cfg.cu3 = .keep ∧
    e0Keep.cfg.cu4 = .keep ∧ ready e0Keep .irq .svc (Table.lrAddress e (readSP e0Keep .svc)) := by
  cases e <;> decide

/-- StepsReadNoMemory, StepsKeepModeSpsrAndConfiguration, NoStoreReachesTheProgram,
StepKeepsTheInvariant, StepRunsTheDecodedInstruction, PlacedWordsRun: a step that completes from a
state that meets the invariant, with a byte of the program. -/
theorem witness_completing_step :
    let s := e0.withFetchWord 32 0xF96D0513
    (∃ t, step s = .next t) ∧ Inv s ∧ inProgram s.program 0x1003#32 = true ∧
    programOffset s % 4 = 0 ∧ programOffset s + 4 ≤ s.program.bytes.length ∧
    (decode s.iset (s.program.bytes.drop (programOffset s))).toOption =
      some (.srsdbA1 true sbA 0x13#5, []) ∧
    decodeTableWord 32 0xF96D0513 = some (.srsdbA1 true sbA 0x13#5) ∧
    decodeTableWord 32 0xE9ADC01B = some (.srsiaT2 true sbT 0x1B#5) :=
  ⟨⟨_, rfl⟩, ⟨by decide, by decide, by decide, by decide, by decide, by decide⟩, by decide⟩

theorem witness_WordsThatAreNotSrsAreRefused :
    let s := e0.withFetchWord 32 0xE1A00000
    programOffset s % 4 = 0 ∧
    s.program.bytes.drop (programOffset s) = 0x00#8 :: 0x00#8 :: 0xA0#8 :: 0xE1#8 :: [] ∧
    decodeWord s.iset (wordOfBytes s.iset 0x00#8 0x00#8 0xA0#8 0xE1#8) = none := by decide

/-- RunsEndJustPastTheProgram: just past, in the middle of an instruction, and beyond. -/
theorem witness_RunsEndJustPastTheProgram :
    let s (a : Word) : State := { e0.withFetchWord 32 0xF96D0513 with pc := a }
    programOffset (s 0x1004#32) = (s 0x1004#32).program.bytes.length ∧
    programOffset (s 0x1002#32) % 4 ≠ 0 ∧
    (s 0x1008#32).program.bytes.length < programOffset (s 0x1008#32) + 4 ∧
    programOffset (s 0x1008#32) ≠ (s 0x1008#32).program.bytes.length := by decide

end Sys2Proof.Tests
end

section
/-! Fetching and the step (00_scope.md R11, 70_reset_and_hazards.md R174): what `fetch`, `fetchInstr`
and `step` answer where a whole instruction word of the program stands at `pc`. -/

namespace Sys2Proof.Machine

variable {s : State} {i : Instr} {rest : List Byte}

/-- The run has not ended here: a whole word of the program is still left at `pc`. -/
theorem fetch_eq_bytes (haligned : programOffset s % 4 = 0)
    (hroom : programOffset s + 4 ≤ s.program.bytes.length) :
    fetch s = .bytes (s.program.bytes.drop (programOffset s)) := by
  have hnotEnded : programOffset s ≠ s.program.bytes.length := by omega
  rw [fetch, if_neg hnotEnded, if_pos ⟨haligned, hroom⟩]

theorem fetchInstr_eq_ok {bs : List Byte} (hfetch : fetch s = .bytes bs)
    (hdecode : decode s.iset bs = .ok (i, rest)) : fetchInstr s = .ok i := by
  simp only [fetchInstr, hfetch, hdecode]

theorem step_eq_exec (hfetch : fetchInstr s = .ok i) : step s = exec i s := by
  simp only [step, hfetch]

/-- Settles O51: the word at `pc` is fetched, decoded to `i`, and the step is then `exec i`. -/
theorem stepRunsTheDecodedInstruction : Obligations.StepRunsTheDecodedInstruction := by
  intro s i rest haligned hroom hdecode
  have hfetch := fetch_eq_bytes haligned hroom
  exact step_eq_exec (fetchInstr_eq_ok hfetch hdecode)

end Sys2Proof.Machine
end

section
/-! The frame of a completed SRS (10_state.md R38, 40_srs.md R124): what each of the ways to
complete leaves unchanged, read off `srs_next_cases` once for the whole family. -/

namespace Sys2Proof.Machine

/-- The fields that no SRS writes on any path: mode, level, security state, instruction set, SPSRs,
configuration and program. -/
structure KeepsStatus (s t : State) : Prop where
  M : t.M = s.M
  EL : t.EL = s.EL
  ss : t.ss = s.ss
  iset : t.iset = s.iset
  spsr : t.spsr = s.spsr
  cfg : t.cfg = s.cfg
  program : t.program = s.program

variable {c : EncClass} {v : DecodeVars} {cur target : Mode} {spsrv : Word} {i : Instr}
  {s t : State}

/-- The operation proper changes memory, one SP bank, `pc` and the condition inputs only. -/
theorem bodyState_eq (c : EncClass) (v : DecodeVars) (cur target : Mode) (spsrv : Word)
    (s : State) :
    bodyState c v cur target spsrv s =
      { s with
        mem := pairMem s (storeAddress v (readSP s target)) (readLR s cur) spsrv
        sp := if v.wback then setSpBank s.sp target (writebackValue v (readSP s target)) else s.sp
        pc := s.pc + 4#32
        condInputs := condInputsAfter c s } := by
  unfold bodyState writeback
  split <;> rfl

/-- UNKNOWN_STORE writes its two words where the free address says, whatever else it does. -/
@[simp] theorem unknownStoreState_mem (c : EncClass) (v : DecodeVars) (cur : Mode) (spsrv : Word)
    (s : State) :
    (unknownStoreState c v cur spsrv s).mem =
      pairMem (useDraws s 1) (Config.freeWord s.draws) (readLR s cur) spsrv := by
  unfold unknownStoreState
  split <;> rfl

@[simp] theorem unknownStoreState_pc (c : EncClass) (v : DecodeVars) (cur : Mode) (spsrv : Word)
    (s : State) : (unknownStoreState c v cur spsrv s).pc = s.pc + 4#32 := by
  unfold unknownStoreState
  split <;> rfl

/-- UNKNOWN_STORE leaves an SP that cannot be accessed at the current level alone. -/
theorem readSP_unknownStoreState {k : Mode} (hk : accessible s k = false) :
    readSP (unknownStoreState c v cur spsrv s) k = readSP s k := by
  unfold unknownStoreState
  split
  · rw [readSP_complete, readSP_scrambleRegs _ _ (by simpa using hk), readSP_setMem]
    cases k <;> rfl
  · rw [readSP_complete, readSP_setMem]
    cases k <;> rfl

theorem complete_keepsStatus (c : EncClass) (s : State) : KeepsStatus s (complete c s) := by
  constructor <;> rfl

theorem bodyState_keepsStatus : KeepsStatus s (bodyState c v cur target spsrv s) := by
  rw [bodyState_eq]
  constructor <;> rfl

theorem unknownStoreState_keepsStatus : KeepsStatus s (unknownStoreState c v cur spsrv s) := by
  unfold unknownStoreState
  split <;> constructor <;> rfl

/-- What holds of a NOP, of the operation proper and of UNKNOWN_STORE holds of every completion. -/
theorem exec_next_elim {P : State → Prop} (h : exec i s = .next t)
    (hnop : ∀ c, P (complete c s))
    (hbody : ∀ c v cur target spsrv, P (bodyState c v cur target spsrv s))
    (hunknown : ∀ c v cur spsrv, P (unknownStoreState c v cur spsrv s)) : P t := by
  rw [exec_eq_srs] at h
  obtain rfl | ⟨_, _, _, -, -, -, -, rfl⟩ | ⟨_, _, -, -, -, -, -, rfl⟩ |
    ⟨_, _, -, -, -, -, -, rfl⟩ := srs_next_cases h
  · exact hnop _
  · exact hbody ..
  · exact hbody ..
  · exact hunknown ..

theorem exec_next_keepsStatus (h : exec i s = .next t) : KeepsStatus s t :=
  exec_next_elim h (fun c => complete_keepsStatus c s) (fun _ _ _ _ _ => bodyState_keepsStatus)
    (fun _ _ _ _ => unknownStoreState_keepsStatus)

theorem exec_next_pc (h : exec i s = .next t) : t.pc = s.pc + 4#32 :=
  exec_next_elim (P := fun t => t.pc = s.pc + 4#32) h (fun _ => rfl)
    (fun _ _ _ _ _ => by rw [bodyState_eq]) (fun _ _ _ _ => unknownStoreState_pc ..)

/-- Every store a completing SRS makes keeps memory in its canonical form (20_memory.md R60). -/
theorem exec_next_mem_wf (h : exec i s = .next t) (hwf : Memory.wf s.mem) : Memory.wf t.mem := by
  refine exec_next_elim (P := fun t => Memory.wf t.mem) h (fun _ => hwf) ?_ ?_
  · intro c v cur target spsrv
    rw [bodyState_eq]
    exact pairMem_wf _ _ _ _ hwf
  · intro c v cur spsrv
    rw [unknownStoreState_mem]
    exact pairMem_wf _ _ _ _ hwf

/-- Outside UNKNOWN_STORE a completed SRS writes neither R0 to R12 nor an LR (10_state.md R26,
40_srs.md R124). -/
theorem exec_next_r_lr (hcu : s.cfg.cu4 ≠ .unknownStore) (h : exec i s = .next t) :
    t.r = s.r ∧ t.lr = s.lr := by
  rw [exec_eq_srs] at h
  obtain rfl | ⟨_, _, _, -, -, -, -, rfl⟩ | ⟨_, _, -, -, -, -, -, rfl⟩ | ⟨_, _, -, -, hunk, -⟩ :=
    srs_next_cases h
  · exact ⟨rfl, rfl⟩
  · rw [bodyState_eq]
    exact ⟨rfl, rfl⟩
  · rw [bodyState_eq]
    exact ⟨rfl, rfl⟩
  · exact absurd hunk hcu

/-- Outside OWN_STACK and UNKNOWN_STORE a completed SRS is a NOP or the operation proper on the
specified mode. -/
theorem exec_next_cases_of_not_caseFour (h : exec i s = .next t)
    (hcu : isCaseFour s.cfg i.mode → s.cfg.cu4 ≠ .ownStack ∧ s.cfg.cu4 ≠ .unknownStore) :
    t = complete (classOf i.encoding) s ∨
    ∃ cur target spsrv, i.mode = target.num ∧
      t = bodyState (classOf i.encoding) (decodeLine (classOf i.encoding) i.W) cur target spsrv
        s := by
  rw [exec_eq_srs] at h
  obtain ht | ⟨cur, target, spsrv, -, hcheck, -, -, ht⟩ | ⟨_, _, -, hcheck, hown, -⟩ |
    ⟨_, _, -, hcheck, hunk, -⟩ := srs_next_cases h
  · exact .inl ht
  · obtain ⟨-, -, hmode, -⟩ := srsCheck_proceed_inv hcheck
    exact .inr ⟨cur, target, spsrv, hmode, ht⟩
  · exact absurd hown (hcu (srsCheck_badMode_inv hcheck)).1
  · exact absurd hunk (hcu (srsCheck_badMode_inv hcheck)).2

theorem decodeLine_wback (c : EncClass) (W : Bool) : (decodeLine c W).wback = W := by
  cases c <;> rfl

theorem readSP_bodyState_other {k : Mode} (hk : sameSpBank k target = false) :
    readSP (bodyState c v cur target spsrv s) k = readSP s k := by
  unfold bodyState writeback
  split
  · rw [readSP_complete, readSP_writeSP_other _ _ _ _ hk, readSP_setMem]
  · rw [readSP_complete, readSP_setMem]

theorem readByte_bodyState_outside {a : Word}
    (ha : outside8 (storeAddress v (readSP s target)) a) :
    readByte (bodyState c v cur target spsrv s) a = readByte s a := by
  rw [bodyState_eq]
  exact memGet_pairMem_outside _ _ _ _ _ ha

/-- Settles O17: a NOP moves on only; the operation proper writes the specified mode's SP bank and
the 8 bytes, since the specified mode is the one the mode field names. -/
theorem completedSrsChangesNothingElse : Obligations.CompletedSrsChangesNothingElse := by
  intro i s t h hcu
  obtain ⟨hM, hEL, hss, hiset, hspsr, hcfg, hprogram⟩ := exec_next_keepsStatus h
  obtain rfl | ⟨cur, target, spsrv, hmode, rfl⟩ :=
    exec_next_cases_of_not_caseFour h fun ⟨hbad, hhyp, hmon⟩ => hcu hbad hhyp hmon
  · exact ⟨hM, hEL, hss, hiset, rfl, rfl, hspsr, hprogram, hcfg, rfl, fun _ => rfl,
      fun k _ => readSP_complete .., fun a _ => readByte_complete ..⟩
  · have hnum : Mode.ofNum i.mode = some target := by rw [hmode, Mode.ofNum_num]
    refine ⟨hM, hEL, hss, hiset, ?_, ?_, hspsr, hprogram, hcfg, ?_, fun hW => ?_,
      fun k hk => readSP_bodyState_other (hk target hnum),
      fun a ha => readByte_bodyState_outside (ha target hnum)⟩
    · rw [bodyState_eq]
    · rw [bodyState_eq]
    · rw [bodyState_eq]
    · simp [bodyState_eq, decodeLine_wback, hW]

end Sys2Proof.Machine
end

section
/-! SP_hyp (10_state.md R23, 60_exceptions.md R152): no SRS that passes the EL2 check runs in Hyp
mode or has it as its target. -/

namespace Sys2Proof.Machine

variable {cur target : Mode} {s : State}

theorem setSpBank_hyp (b : SpBanks) {m : Mode} (hm : m ≠ .hyp) (v : Word) :
    (setSpBank b m v).hyp = b.hyp := by
  cases m with
  | hyp => exact absurd rfl hm
  | _ => rfl

/-- At EL2 the checks answer UNDEFINED and nothing else (40_srs.md R102). -/
theorem EL_ne_el2_of_srsCheck {mode : BitVec 5} {r : CheckResult} (h : srsCheck s cur mode = r)
    (hr : r ≠ .undefined) : s.EL ≠ el2 := by
  intro hel
  exact hr (by rw [← h, srsCheck, if_pos hel])

/-- Hyp is a current mode at EL2 only (10_state.md R34). -/
theorem EL_eq_el2_of_currentMode_hyp (h : currentMode s = some .hyp) : s.EL = el2 := by
  have hM : Mode.ofNum s.M = some .hyp := by rw [currentMode_num h, Mode.ofNum_num]
  by_contra hel
  simp [currentMode, hM, hel] at h

/-- Of the levels from which SP_hyp can be accessed, EL2 is where SRS is UNDEFINED; EL3 is left. -/
theorem accessible_hyp_eq_false (h2 : s.EL ≠ 0b10#2) (h3 : s.EL ≠ 0b11#2) :
    accessible s .hyp = false := by
  refine decide_eq_false ?_
  show ¬2 ≤ s.EL.toNat
  bv_omega

theorem bodyState_sp_hyp {c : EncClass} {v : DecodeVars} {spsrv : Word} (h : target ≠ .hyp) :
    (bodyState c v cur target spsrv s).sp.hyp = s.sp.hyp := by
  simp only [bodyState_eq]
  split
  · exact setSpBank_hyp _ h _
  · rfl

/-- Settles O45: the target of the operation proper is not Hyp, the current mode of OWN_STACK is not
Hyp outside EL2, and UNKNOWN_STORE reaches SP_hyp from EL3 only. -/
theorem hypStackPointerIsNeverWritten : Obligations.HypStackPointerIsNeverWritten := by
  intro i s t h hreach
  rw [exec_eq_srs] at h
  obtain rfl | ⟨_, target, _, -, hcheck, -, -, rfl⟩ | ⟨cur, _, hcur, hcheck, -, -, -, rfl⟩ |
    ⟨cur, _, -, hcheck, hunk, -, -, rfl⟩ := srs_next_cases h
  · rfl
  · obtain ⟨-, -, -, htarget, -⟩ := srsCheck_proceed_inv hcheck
    exact bodyState_sp_hyp htarget
  · have hel : s.EL ≠ el2 := EL_ne_el2_of_srsCheck hcheck (by decide)
    refine bodyState_sp_hyp ?_
    rintro rfl
    exact hel (EL_eq_el2_of_currentMode_hyp hcur)
  · have hel : s.EL ≠ el2 := EL_ne_el2_of_srsCheck hcheck (by decide)
    have hel3 : s.EL ≠ 0b11#2 := hreach.resolve_right (not_not_intro hunk)
    exact readSP_unknownStoreState (accessible_hyp_eq_false hel hel3)

end Sys2Proof.Machine
end

section
/-! Steps that complete (00_scope.md R11, 70_reset_and_hazards.md R174): they run an instruction
that stands whole in the program, and keep the status and the invariant. -/

namespace Sys2Proof.Machine

variable {s t : State} {i : Instr}

theorem room_of_fetch_eq_bytes {bs : List Byte} (h : fetch s = .bytes bs) :
    programOffset s % 4 = 0 ∧ programOffset s + 4 ≤ s.program.bytes.length := by
  unfold fetch at h
  split at h
  · cases h
  · split at h
    · assumption
    · cases h

theorem fetch_eq_bytes_of_fetchInstr (h : fetchInstr s = .ok i) : ∃ bs, fetch s = .bytes bs := by
  cases hf : fetch s with
  | ended => simp [fetchInstr, hf] at h
  | outside => simp [fetchInstr, hf] at h
  | bytes bs => exact ⟨bs, rfl⟩

/-- A step completes only by executing an instruction that stands whole in the program. -/
theorem step_next_inv (h : step s = .next t) :
    ∃ i, exec i s = .next t ∧
      programOffset s % 4 = 0 ∧ programOffset s + 4 ≤ s.program.bytes.length := by
  cases hi : fetchInstr s with
  | error e => simp [step, hi] at h
  | ok i =>
    obtain ⟨bs, hbs⟩ := fetch_eq_bytes_of_fetchInstr hi
    rw [step_eq_exec hi] at h
    exact ⟨i, h, room_of_fetch_eq_bytes hbs⟩

/-- Moving past an instruction moves 4 bytes into a program that does not fill the address space. -/
theorem programOffset_next (hpc : t.pc = s.pc + 4#32) (hprogram : t.program = s.program)
    (hwf : programWf s.program) (hroom : programOffset s + 4 ≤ s.program.bytes.length) :
    programOffset t = programOffset s + 4 := by
  have hlen := hwf.2
  unfold programOffset at hroom ⊢
  rw [hpc, hprogram]
  bv_omega

/-- Four is a multiple of either instruction set's alignment. -/
theorem pcAligned_next (hpc : t.pc = s.pc + 4#32) (hiset : t.iset = s.iset) (h : pcAligned s) :
    pcAligned t := by
  obtain ⟨ha32, ht32⟩ := h
  have hnat : t.pc.toNat = (s.pc.toNat + 4) % 2 ^ 32 := by simp [hpc]
  refine ⟨fun hset => ?_, fun hset => ?_⟩
  · have := ha32 (hiset ▸ hset)
    omega
  · have := ht32 (hiset ▸ hset)
    omega

theorem KeepsStatus.elConsistent (hk : KeepsStatus s t) (h : elConsistent s) : elConsistent t := by
  unfold Machine.elConsistent
  rw [hk.M, hk.EL, hk.cfg, hk.ss]
  exact h

/-- Settles O55: the step's instruction stands whole in the program, so `pc + 4` is still in it or
just past it; the status that mode and level speak of is kept, and the stores keep memory
canonical. -/
theorem stepKeepsTheInvariant : Obligations.StepKeepsTheInvariant := by
  intro s t hinv hstep
  obtain ⟨i, hexec, haligned, hroom⟩ := step_next_inv hstep
  have hkeeps := exec_next_keepsStatus hexec
  have hpc := exec_next_pc hexec
  have hoffset := programOffset_next hpc hkeeps.program hinv.program hroom
  exact
    { memory := exec_next_mem_wf hexec hinv.memory
      legalMode := hkeeps.M ▸ hinv.legalMode
      level := hkeeps.elConsistent hinv.level
      program := hkeeps.program ▸ hinv.program
      inside := by
        rw [pcInProgram, hoffset, hkeeps.program]
        omega
      aligned := pcAligned_next hpc hkeeps.iset hinv.aligned }

/-- Settles O47: a completing step is a completing SRS, which keeps the status on every path. -/
theorem stepsKeepModeSpsrAndConfiguration : Obligations.StepsKeepModeSpsrAndConfiguration := by
  intro s t hstep
  obtain ⟨i, hexec, -⟩ := step_next_inv hstep
  obtain ⟨hM, hEL, hss, hiset, hspsr, hcfg, hprogram⟩ := exec_next_keepsStatus hexec
  exact ⟨hM, hEL, hss, hiset, hspsr, hcfg, hprogram, fun hcu => (exec_next_r_lr hcu hexec).2⟩

theorem faultPc_of_storeFault {address : Word} {f : Fault} (h : storeFault s address f) :
    faultPc f = s.pc := by
  obtain rfl | ⟨x, rfl⟩ := h <;> rfl

theorem exec_fault_pc {f : Fault} (h : exec i s = .fault f) : faultPc f = s.pc := by
  rw [exec_eq_srs] at h
  obtain ⟨cur, -, ⟨-, rfl⟩ | ⟨-, -, hcase⟩⟩ := srs_fault_cases h
  · rfl
  · obtain ⟨-, rfl⟩ | ⟨-, rfl⟩ | ⟨k, -, rfl | rfl⟩ | ⟨target, -, hstore⟩ | ⟨-, -, x, rfl⟩ := hcase
    · rfl
    · rfl
    · rfl
    · rfl
    · exact faultPc_of_storeFault hstore
    · rfl

/-- Settles O49: every way to complete ends in `complete`, and every raise records `pc`. -/
theorem controlIsSequential : Obligations.ControlIsSequential :=
  fun _ _ => ⟨fun _ => exec_next_pc, fun _ => exec_fault_pc⟩

end Sys2Proof.Machine
end

section
/-! Noninterference: a completing SRS completes alike from another state that its checks cannot tell
apart from the first, if its stores do (40_srs.md R107, R115). -/

namespace Sys2Proof.Machine

/-- An SRS takes the same decisions before its stores in both states: current mode, condition,
checks and the resolutions of cases 1 to 3. -/
structure DecidesAlike (e : Encoding) (mode : BitVec 5) (s s' : State) : Prop where
  current : currentMode s' = currentMode s
  cond : condPassed (classOf e) s' = condPassed (classOf e) s
  check : ∀ cur, srsCheck s' cur mode = srsCheck s cur mode
  cu1 : s'.cfg.cu1 = s.cfg.cu1
  cu2 : s'.cfg.cu2 = s.cfg.cu2
  cu3 : s'.cfg.cu3 = s.cfg.cu3

variable {e : Encoding} {W : Bool} {sb : BitVec 15} {mode : BitVec 5} {s s' t t' : State}

theorem resolveCu_next_iff (c : EncClass) (choice : CuChoice) (case : CuCase) (s t : State) :
    resolveCu c choice case s = .next t ↔ choice = .nop ∧ t = complete c s := by
  cases choice <;> simp [resolveCu, raiseUnpredictable, raiseUndefined, @eq_comm State t]

/-- What follows the checks completes alike where its three endings do: a NOP, the operation proper
and case 4. -/
theorem srsAfterChecks_next_transfer {c : EncClass} {v : DecodeVars} {cur : Mode} {r : CheckResult}
    (hcu1 : s'.cfg.cu1 = s.cfg.cu1) (hcu2 : s'.cfg.cu2 = s.cfg.cu2) (hcu3 : s'.cfg.cu3 = s.cfg.cu3)
    (hnop : t = complete c s → t' = complete c s')
    (hbody : ∀ target, r = .proceed target →
      srsBody c v cur target s = .next t → srsBody c v cur target s' = .next t')
    (hbad : r = .unpredictable .badMode →
      resolveBadMode c v cur s = .next t → resolveBadMode c v cur s' = .next t')
    (h : srsAfterChecks c v cur r s = .next t) : srsAfterChecks c v cur r s' = .next t' := by
  have hresolve : ∀ choice case, resolveCu c choice case s = .next t →
      resolveCu c choice case s' = .next t' := fun choice case hr => by
    rw [resolveCu_next_iff] at hr ⊢
    exact ⟨hr.1, hnop hr.2⟩
  cases r with
  | undefined => cases h
  | monitorModeTrap => cases h
  | proceed target => exact hbody target rfl h
  | unpredictable case =>
    cases case with
    | shouldBe => cases h
    | userOrSystem =>
      simp only [srsAfterChecks, resolveUnpredictable, hcu1] at h ⊢
      exact hresolve _ _ h
    | hypMode =>
      simp only [srsAfterChecks, resolveUnpredictable, hcu2] at h ⊢
      exact hresolve _ _ h
    | monitorMode =>
      simp only [srsAfterChecks, resolveUnpredictable, hcu3] at h ⊢
      exact hresolve _ _ h
    | badMode => exact hbad rfl h

theorem srs_next_transfer (alike : DecidesAlike e mode s s')
    (hnop : t = complete (classOf e) s → t' = complete (classOf e) s')
    (hbody : ∀ cur target, srsCheck s cur mode = .proceed target →
      srsBody (classOf e) (decodeLine (classOf e) W) cur target s = .next t →
      srsBody (classOf e) (decodeLine (classOf e) W) cur target s' = .next t')
    (hbad : ∀ cur, srsCheck s cur mode = .unpredictable .badMode →
      resolveBadMode (classOf e) (decodeLine (classOf e) W) cur s = .next t →
      resolveBadMode (classOf e) (decodeLine (classOf e) W) cur s' = .next t')
    (h : srs e W sb mode s = .next t) : srs e W sb mode s' = .next t' := by
  unfold srs at h ⊢
  rw [alike.current]
  cases hcur : currentMode s with
  | none => simp [hcur, refuseBadCurrentMode] at h
  | some cur =>
    simp only [hcur, alike.cond, alike.check] at h ⊢
    split at h
    · cases h
    · next hsb =>
      rw [if_neg hsb]
      split at h
      · next hcond =>
        rw [if_pos hcond, hnop (by simpa using h.symm)]
      · next hcond =>
        rw [if_neg hcond]
        exact srsAfterChecks_next_transfer alike.cu1 alike.cu2 alike.cu3 hnop (hbody cur)
          (hbad cur) h

/-- R0 to R12 replaced. -/
def setR (s : State) (v : Vector Word 13) : State :=
  { s with r := v }

theorem decidesAlike_setR (v : Vector Word 13) : DecidesAlike e mode s (setR s v) := by
  constructor
  case cond => cases e <;> rfl
  all_goals (intros; rfl)

theorem bodyState_setR (c : EncClass) (dv : DecodeVars) (cur target : Mode) (spsrv : Word)
    (s : State) (v : Vector Word 13) :
    bodyState c dv cur target spsrv (setR s v) = setR (bodyState c dv cur target spsrv s) v := by
  rw [bodyState_eq, bodyState_eq]
  cases c <;> cases cur <;> cases target <;> rfl

theorem srsBody_next_setR {c : EncClass} {dv : DecodeVars} {cur target : Mode} (v : Vector Word 13)
    (h : srsBody c dv cur target s = .next t) :
    srsBody c dv cur target (setR s v) = .next (setR t v) := by
  obtain ⟨spsrv, hspsr, hstorable, rfl⟩ := (srsBody_next_iff ..).mp h
  have hreadSPSR : readSPSR (setR s v) cur = readSPSR s cur := by cases cur <;> rfl
  have hreadSP : readSP (setR s v) target = readSP s target := by cases target <;> rfl
  rw [← bodyState_setR]
  exact srsBody_of_storable (hreadSPSR.trans hspsr) (hreadSP ▸ hstorable)

theorem resolveBadMode_next_setR {c : EncClass} {dv : DecodeVars} {cur : Mode}
    (v : Vector Word 13) (hcu : s.cfg.cu4 ≠ .unknownStore)
    (h : resolveBadMode c dv cur s = .next t) :
    resolveBadMode c dv cur (setR s v) = .next (setR t v) := by
  have hcfg : (setR s v).cfg = s.cfg := rfl
  unfold resolveBadMode at h ⊢
  rw [hcfg]
  cases hcu4 : s.cfg.cu4 with
  | keep => simp [hcu4, raiseUnpredictable] at h
  | undef => simp [hcu4, raiseUndefined] at h
  | nop =>
    obtain rfl : complete c s = t := by simpa [hcu4] using h
    cases c <;> rfl
  | ownStack => exact srsBody_next_setR v (by simpa [hcu4] using h)
  | unknownStore => exact absurd hcu4 hcu

/-- Settles O44: no completion outside UNKNOWN_STORE writes R0 to R12, and neither the checks nor
the stores read them. -/
theorem generalRegistersAreNeitherReadNorWritten :
    Obligations.GeneralRegistersAreNeitherReadNorWritten := by
  intro i s t v hcu h
  refine ⟨(exec_next_r_lr hcu h).1, ?_⟩
  show exec i (setR s v) = .next (setR t v)
  rw [exec_eq_srs] at h ⊢
  refine srs_next_transfer (decidesAlike_setR v) ?_ (fun _ _ _ => srsBody_next_setR v)
    (fun _ _ => resolveBadMode_next_setR v hcu) h
  rintro rfl
  cases classOf i.encoding <;> rfl

end Sys2Proof.Machine
end

section
/-! Mode numbers (10_state.md R22, R31, R34): the 23 that name no mode, and the answer of
`BadMode`. -/

namespace Sys2Proof.Machine

/-- The 23 numbers that the table of modes does not show. -/
theorem Mode.ofNum_eq_none_iff (m : BitVec 5) :
    Mode.ofNum m = none ↔
      (m < 0b10000#5 ∨ m = 0x14#5 ∨ m = 0x15#5 ∨ m = 0x18#5 ∨ m = 0x19#5 ∨ m = 0x1C#5 ∨
        m = 0x1D#5 ∨ m = 0x1E#5) := by
  revert m
  decide

theorem badMode_of_ofNum_eq_none (cfg : Config) {m : BitVec 5} (h : Mode.ofNum m = none) :
    badMode cfg m = true := by
  simp [badMode, implemented, h]

theorem badMode_num (cfg : Config) {k : Mode} (hk : k ≠ .mon) :
    badMode cfg k.num = !hasMode cfg.modes k := by
  unfold badMode implemented
  rw [Mode.ofNum_num]
  cases k with
  | mon => exact absurd rfl hk
  | _ => rfl

theorem badMode_mon (cfg : Config) :
    badMode cfg Mode.mon.num = !(cfg.modes.mon && cfg.haveEL3 && cfg.el3AArch32) := by
  rw [badMode, implemented, Mode.ofNum_num]

/-- Settles O28: a number without a mode is not implemented, and each mode's Boolean answers
for it. -/
theorem badModeHoldsOfEveryNonMode : Obligations.BadModeHoldsOfEveryNonMode := by
  intro cfg m
  have hmode (k : Mode) (hk : k ≠ .mon) := badMode_num cfg hk
  exact ⟨fun h => badMode_of_ofNum_eq_none cfg ((Mode.ofNum_eq_none_iff m).mpr h),
    hmode .usr (by decide), hmode .fiq (by decide), hmode .irq (by decide), hmode .svc (by decide),
    hmode .abt (by decide), hmode .hyp (by decide), hmode .und (by decide), hmode .sys (by decide),
    badMode_mon cfg⟩

theorem exec_of_currentMode_eq_none {i : Instr} {s : State} (h : currentMode s = none) :
    exec i s = .refused (.badCurrentMode s.pc s.M) := by
  rw [exec_eq_srs]
  simp only [srs, h, refuseBadCurrentMode]

/-- Settles O34: `currentMode` has no answer there, and it is asked before everything else. -/
theorem meaninglessCurrentModeIsRefused : Obligations.MeaninglessCurrentModeIsRefused := by
  intro i s h
  apply exec_of_currentMode_eq_none
  by_cases hhyp : s.M = 0x1A#5 ∧ s.EL ≠ 0b10#2
  · have hnum : Mode.ofNum s.M = some .hyp := by rw [hhyp.1]; rfl
    have hel : s.EL ≠ el2 := hhyp.2
    simp [currentMode, hnum, hel]
  · have hnum : Mode.ofNum s.M = none :=
      (Mode.ofNum_eq_none_iff s.M).mpr (by simpa only [hhyp, or_false] using h)
    simp only [currentMode, hnum]

end Sys2Proof.Machine
end

section
/-! The reset state, whose values are the model's (10_state.md R37, log entries 2 to 8). -/

namespace Sys2Proof.Machine

/-- Just past the program the run has ended (70_reset_and_hazards.md R174). -/
theorem step_eq_runEnded {s : State} (h : programOffset s = s.program.bytes.length) :
    step s = .refused (.runEnded s.pc) := by
  have hfetch : fetch s = .ended := if_pos h
  simp only [step, fetchInstr, hfetch]

/-- Settles O56: `pc` is just past the empty program at reset, and Supervisor mode fits EL1 in a
machine without EL3. -/
theorem resetMeetsTheInvariant : Obligations.ResetMeetsTheInvariant :=
  { memory := reset_mem_wf
    legalMode := by decide
    level := by decide
    program := by decide
    inside := by decide
    aligned := by decide }

/-- Settles O57: every clause but the last is read off `State.reset`; the last because `pc` is just
past the empty program. -/
theorem resetIsSupervisorWithNothingPlaced : Obligations.ResetIsSupervisorWithNothingPlaced := by
  refine ⟨rfl, rfl, rfl, rfl, rfl, rfl, rfl, rfl, rfl, rfl, ?_, ?_, ?_, ?_, rfl, rfl, ?_, rfl, rfl,
    rfl, rfl, rfl, rfl, step_eq_runEnded (by decide)⟩
  · intro k hk
    exact Vector.getElem_replicate hk
  · intro m
    cases m <;> rfl
  · intro m
    cases m <;> rfl
  · intro m v h
    cases m <;> cases h <;> rfl
  · intro m
    cases m <;> rfl

end Sys2Proof.Machine
end

section
/-! The two stores and where they stop (20_memory.md R51 to R55, R63; 60_exceptions.md R147): the
address that is checked, and the answer of each check that fails. -/

namespace Sys2Proof.Machine

variable {s : State} {address : Word}

theorem aligned4_iff (a : Word) : aligned4 a = true ↔ a.toNat % 4 = 0 := by
  simp [aligned4, BitVec.toNat_eq]

/-- The address the decode variables give is the one in the table of 40_srs.md R109. -/
theorem storeAddress_decodeLine (e : Encoding) (W : Bool) (base : Word) :
    storeAddress (decodeLine (classOf e) W) base = Table.lrAddress e base := by
  cases e with
  | srsdaA1 =>
    show base - 8#32 + 4#32 = base - 4#32
    bv_omega
  | _ => rfl

theorem spsrAddress_eq_lrAddress_add (e : Encoding) (base : Word) :
    Table.spsrAddress e base = Table.lrAddress e base + 4#32 := by
  cases e <;> simp only [Table.spsrAddress, Table.lrAddress] <;> bv_omega

/-- Every address of the table is a multiple of 4 away from the base. -/
theorem aligned4_lrAddress (e : Encoding) (base : Word) :
    aligned4 (Table.lrAddress e base) = aligned4 base := by
  rw [Bool.eq_iff_iff, aligned4_iff, aligned4_iff]
  cases e <;> simp only [Table.lrAddress] <;> bv_omega

theorem storePairAligned_of_misaligned (h : aligned4 address = false) (lrv spsrv : Word) :
    storePairAligned s address lrv spsrv = .fault (.alignmentFault s.pc address) := by
  simp [storePairAligned, h, raiseAlignmentFault]

theorem storePairAligned_of_aligned (h : aligned4 address = true) (lrv spsrv : Word) :
    storePairAligned s address lrv spsrv = storePair s address lrv spsrv := by
  simp [storePairAligned, h]

theorem storePair_of_overlap (h : overlapsProgram s.program address = true) (lrv spsrv : Word) :
    storePair s address lrv spsrv = .refused (.storeToProgram s.pc address) := by
  simp [storePair, h, refuseStoreToProgram]

/-- The lower word is asked for first, so the upper word's address fails only where the lower word is
admitted. -/
theorem storePair_of_unadmitted (hprogram : overlapsProgram s.program address = false)
    (h : memAdmit s.cfg address 4 true = false ∨ memAdmit s.cfg (address + 4#32) 4 true = false)
    (lrv spsrv : Word) :
    storePair s address lrv spsrv =
      .fault (.dataAbort s.pc
        (if memAdmit s.cfg address 4 true then address + 4#32 else address)
        (abortState s address)) := by
  cases hlower : memAdmit s.cfg address 4 true with
  | false => simp [storePair, hprogram, hlower, raiseDataAbort]
  | true =>
    have hupper : memAdmit s.cfg (address + 4#32) 4 true = false := by simpa [hlower] using h
    simp [storePair, hprogram, hlower, hupper, raiseDataAbort]

/-- An outcome that is no next state ends the instruction. -/
theorem andThen_of_not_completes {o : Result} (h : ¬completes o) (f : State → Result) :
    andThen o f = o := by
  cases o with
  | next t => exact absurd ⟨t, rfl⟩ h
  | fault r => rfl
  | refused r => rfl

theorem not_completes_fault (f : Fault) : ¬completes (.fault f) := by
  rintro ⟨t, h⟩
  cases h

theorem not_completes_refused (r : Refusal) : ¬completes (.refused r) := by
  rintro ⟨t, h⟩
  cases h

/-- A canonical SRS that passes the condition and the checks runs the operation proper. -/
theorem exec_eq_srsBody {e : Encoding} {W : Bool} {cur target : Mode} (hM : s.M = cur.num)
    (hsaves : savesReturnState cur) (hel : s.EL ≠ el2) (hcond : condPassed (classOf e) s = true)
    (htarget : usableTarget s target) :
    exec (e.instr W e.shouldBe target.num) s =
      srsBody (classOf e) (decodeLine (classOf e) W) cur target s := by
  have hcur : currentMode s = some cur :=
    currentMode_of_num hM fun hhyp => absurd hhyp (savesReturnState_ne_hyp hsaves)
  simp [exec_instr, srs, hcur, hcond, srsCheck_proceed hel hsaves htarget, srsAfterChecks]

/-- Where the two stores stop, the whole SRS stops in the same way. -/
theorem exec_eq_of_stores_stop {e : Encoding} {W : Bool} {cur target : Mode} {o : Result}
    (hM : s.M = cur.num) (hsaves : savesReturnState cur) (hel : s.EL ≠ el2)
    (hcond : condPassed (classOf e) s = true) (htarget : usableTarget s target)
    (hstop : ¬completes o)
    (hstores : ∀ lrv spsrv,
      storePairAligned s (Table.lrAddress e (readSP s target)) lrv spsrv = o) :
    exec (e.instr W e.shouldBe target.num) s = o := by
  obtain ⟨spsrv, hspsr⟩ := readSPSR_isSome hsaves s
  rw [exec_eq_srsBody hM hsaves hel hcond htarget]
  simp only [srsBody, hspsr, storeAddress_decodeLine, hstores, andThen_of_not_completes hstop]

/-- Settles O35: alignment is the first check of the stores, and the base decides it. -/
theorem misalignedBaseFaults : Obligations.MisalignedBaseFaults := by
  intro e W cur target s hM hsaves hel hcond htarget hbase
  have haddress := (aligned4_lrAddress e (readSP s target)).trans hbase
  exact exec_eq_of_stores_stop hM hsaves hel hcond htarget (not_completes_fault _)
    (storePairAligned_of_misaligned haddress)

/-- Settles O36: overlap with the program is the second check, before either admission. -/
theorem storeToProgramIsRefused : Obligations.StoreToProgramIsRefused := by
  intro e W cur target s hM hsaves hel hcond htarget hbase hoverlap
  have haddress := (aligned4_lrAddress e (readSP s target)).trans hbase
  refine exec_eq_of_stores_stop hM hsaves hel hcond htarget (not_completes_refused _)
    fun lrv spsrv => ?_
  rw [storePairAligned_of_aligned haddress, storePair_of_overlap hoverlap]

/-- Settles O37: the state carried is `abortState`, which frees the 8 bytes from the lower word's
address up. -/
theorem unadmittedStoreAborts : Obligations.UnadmittedStoreAborts := by
  intro e W cur target s hM hsaves hel hcond htarget hbase hoverlap hdenied
  have haddress := (aligned4_lrAddress e (readSP s target)).trans hbase
  rw [spsrAddress_eq_lrAddress_add] at hdenied ⊢
  refine ⟨abortState s (Table.lrAddress e (readSP s target)), ?_, rfl,
    readByte_abortState_outside s _⟩
  refine exec_eq_of_stores_stop hM hsaves hel hcond htarget (not_completes_fault _)
    fun lrv spsrv => ?_
  rw [storePairAligned_of_aligned haddress, storePair_of_unadmitted hoverlap hdenied]

end Sys2Proof.Machine
end

section
/-! The bytes a store reaches (20_memory.md R52, R63): their order within a word, and that none is
the program's. -/

namespace Sys2Proof.Machine

theorem getElem_wordBytes (bigEndian : Bool) (v : Word) (i : Nat)
    (hi : i < (wordBytes bigEndian v).length) :
    (wordBytes bigEndian v)[i] =
      if bigEndian then v.extractLsb' (24 - 8 * i) 8 else v.extractLsb' (8 * i) 8 := by
  have hi4 : i < 4 := by simpa using hi
  cases bigEndian <;> interval_cases i <;> rfl

/-- Settles O42: the i-th byte stored stands at the i-th address. -/
theorem storedWordsAreLaidOutByEndianness : Obligations.StoredWordsAreLaidOutByEndianness := by
  intro cfg m a v i hi
  rw [storeWord, memGet_storeBytes_inside m a _ (by simp) i (by simpa using hi), getElem_wordBytes]

/-- No byte of a program is a target of a store that does not overlap the program. -/
theorem outside8_of_inProgram {p : Program} {address a : Word}
    (hoverlap : overlapsProgram p address = false) (ha : inProgram p a = true) :
    outside8 address a := by
  rintro k hk rfl
  have hk' := List.any_eq_false.mp hoverlap k (List.mem_range.mpr hk)
  exact hk' ha

theorem readByte_unknownStoreState_outside {c : EncClass} {v : DecodeVars} {cur : Mode}
    {spsrv a : Word} {s : State} (ha : outside8 (Config.freeWord s.draws) a) :
    readByte (unknownStoreState c v cur spsrv s) a = readByte s a := by
  rw [readByte, unknownStoreState_mem, memGet_pairMem_outside _ _ _ _ _ ha, useDraws_mem, readByte]

/-- Settles O48: every path that stores has found no overlap with the program at its address. -/
theorem noStoreReachesTheProgram : Obligations.NoStoreReachesTheProgram := by
  intro s t a hstep ha
  obtain ⟨i, hexec, -⟩ := step_next_inv hstep
  rw [exec_eq_srs] at hexec
  obtain rfl | ⟨_, _, _, -, -, -, ⟨-, hoverlap, -⟩, rfl⟩ |
    ⟨_, _, -, -, -, -, ⟨-, hoverlap, -⟩, rfl⟩ | ⟨_, _, -, -, -, -, hoverlap, rfl⟩ :=
    srs_next_cases hexec
  · exact readByte_complete ..
  · exact readByte_bodyState_outside (outside8_of_inProgram hoverlap ha)
  · exact readByte_bodyState_outside (outside8_of_inProgram hoverlap ha)
  · exact readByte_unknownStoreState_outside (outside8_of_inProgram hoverlap ha)

end Sys2Proof.Machine
end

section
/-! Admission (20_memory.md R54, R55): rules about accesses that no SRS makes are never consulted, so
a state with more of them decides and stores alike. -/

namespace Sys2Proof.Machine

variable {c : EncClass} {v : DecodeVars} {cur target : Mode} {s s' t t' : State}
  {extra : List DenyRule}

/-- More accesses that are not admitted. -/
def denyAlso (s : State) (extra : List DenyRule) : State :=
  { s with cfg := { s.cfg with memDeny := s.cfg.memDeny ++ extra } }

theorem denyAlso_eq_of_cfg (h : t.cfg = s.cfg) :
    { t with cfg := { t.cfg with memDeny := s.cfg.memDeny ++ extra } } = denyAlso t extra := by
  rw [denyAlso, h]

/-- None of the rules is about an access SRS makes. -/
abbrev sparesPrivilegedWords (extra : List DenyRule) : Prop :=
  ∀ d ∈ extra, d.size ≠ 4 ∨ d.priv = false

theorem denies_eq_false_of_spared {d : DenyRule} (h : d.size ≠ 4 ∨ d.priv = false)
    (address : Word) : denies d address 4 true = false := by
  obtain hsize | hpriv := h
  · simp [denies, hsize]
  · simp [denies, hpriv]

theorem memAdmit_denyAlso (hextra : sparesPrivilegedWords extra) (s : State) (address : Word) :
    memAdmit (denyAlso s extra).cfg address 4 true = memAdmit s.cfg address 4 true := by
  have hnone : (extra.any fun d => denies d address 4 true) = false :=
    List.any_eq_false.mpr fun d hd => by simp [denies_eq_false_of_spared (hextra d hd) address]
  simp [memAdmit, denyAlso, hnone]

theorem decidesAlike_denyAlso {e : Encoding} {mode : BitVec 5} (s : State)
    (extra : List DenyRule) : DecidesAlike e mode s (denyAlso s extra) := by
  constructor
  case cond => cases e <;> rfl
  all_goals (intros; rfl)

theorem readSP_denyAlso (s : State) (extra : List DenyRule) (k : Mode) :
    readSP (denyAlso s extra) k = readSP s k := by
  cases k <;> rfl

theorem readLR_denyAlso (s : State) (extra : List DenyRule) (k : Mode) :
    readLR (denyAlso s extra) k = readLR s k := by
  cases k <;> rfl

theorem readSPSR_denyAlso (s : State) (extra : List DenyRule) (k : Mode) :
    readSPSR (denyAlso s extra) k = readSPSR s k := by
  cases k <;> rfl

theorem complete_denyAlso (c : EncClass) (s : State) (extra : List DenyRule) :
    complete c (denyAlso s extra) = denyAlso (complete c s) extra := by
  cases c <;> rfl

theorem bodyState_denyAlso (c : EncClass) (v : DecodeVars) (cur target : Mode) (spsrv : Word)
    (s : State) (extra : List DenyRule) :
    bodyState c v cur target spsrv (denyAlso s extra) =
      denyAlso (bodyState c v cur target spsrv s) extra := by
  rw [bodyState_eq, bodyState_eq, readSP_denyAlso, readLR_denyAlso]
  cases c <;> rfl

theorem unknownStoreState_denyAlso (c : EncClass) (v : DecodeVars) (cur : Mode) (spsrv : Word)
    (s : State) (extra : List DenyRule) :
    unknownStoreState c v cur spsrv (denyAlso s extra) =
      denyAlso (unknownStoreState c v cur spsrv s) extra := by
  unfold unknownStoreState
  rw [readLR_denyAlso]
  dsimp only
  split
  · rw [← complete_denyAlso]
    rfl
  · rw [← complete_denyAlso]
    rfl

theorem srsBody_next_denyAlso (hextra : sparesPrivilegedWords extra)
    (h : srsBody c v cur target s = .next t) :
    srsBody c v cur target (denyAlso s extra) = .next (denyAlso t extra) := by
  obtain ⟨spsrv, hspsr, ⟨haligned, hoverlap, hlower, hupper⟩, rfl⟩ := (srsBody_next_iff ..).mp h
  rw [← bodyState_denyAlso]
  refine srsBody_of_storable ((readSPSR_denyAlso ..).trans hspsr) ?_
  rw [readSP_denyAlso, storable, memAdmit_denyAlso hextra, memAdmit_denyAlso hextra]
  exact ⟨haligned, hoverlap, hlower, hupper⟩

theorem srsUnknownStore_next_denyAlso (hextra : sparesPrivilegedWords extra)
    (h : srsUnknownStore c v cur s = .next t) :
    srsUnknownStore c v cur (denyAlso s extra) = .next (denyAlso t extra) := by
  obtain ⟨spsrv, hspsr, ⟨hoverlap, hlower, hupper⟩, rfl⟩ := (srsUnknownStore_next_iff ..).mp h
  rw [← unknownStoreState_denyAlso]
  refine (srsUnknownStore_next_iff ..).mpr ⟨spsrv, (readSPSR_denyAlso ..).trans hspsr, ?_, rfl⟩
  rw [memAdmit_denyAlso hextra, memAdmit_denyAlso hextra]
  exact ⟨hoverlap, hlower, hupper⟩

/-- Case 4 completes alike where its three endings do: a NOP, OWN_STACK and UNKNOWN_STORE. -/
theorem resolveBadMode_next_transfer (hcu4 : s'.cfg.cu4 = s.cfg.cu4)
    (hnop : t = complete c s → t' = complete c s')
    (hown : srsBody c v cur cur s = .next t → srsBody c v cur cur s' = .next t')
    (hunknown : srsUnknownStore c v cur s = .next t → srsUnknownStore c v cur s' = .next t')
    (h : resolveBadMode c v cur s = .next t) : resolveBadMode c v cur s' = .next t' := by
  unfold resolveBadMode at h ⊢
  rw [hcu4]
  cases hchoice : s.cfg.cu4 with
  | keep => simp [hchoice, raiseUnpredictable] at h
  | undef => simp [hchoice, raiseUndefined] at h
  | nop =>
    have ht : complete c s = t := by simpa [hchoice] using h
    exact congrArg _ (hnop ht.symm).symm
  | ownStack => exact hown (by simpa [hchoice] using h)
  | unknownStore => exact hunknown (by simpa [hchoice] using h)

/-- Settles O50: the stores ask for privileged words only, and nothing else asks for admission. -/
theorem onlyPrivilegedWordsAreAskedFor : Obligations.OnlyPrivilegedWordsAreAskedFor := by
  intro i s t extra hextra h
  show exec i (denyAlso s extra) = .next _
  rw [denyAlso_eq_of_cfg (exec_next_keepsStatus h).cfg]
  have hnop : ∀ c, t = complete c s → denyAlso t extra = complete c (denyAlso s extra) := by
    rintro c rfl
    rw [complete_denyAlso]
  rw [exec_eq_srs] at h ⊢
  exact srs_next_transfer (decidesAlike_denyAlso s extra) (hnop _)
    (fun _ _ _ => srsBody_next_denyAlso hextra)
    (fun _ _ => resolveBadMode_next_transfer rfl (hnop _) (srsBody_next_denyAlso hextra)
      (srsUnknownStore_next_denyAlso hextra)) h

end Sys2Proof.Machine
end

section
/-! Instruction words (30_encoding.md R71 to R73, R80, R81): the decoder and the encoder are each
other's inverse, and the columns of the opcode table say when a word fits a row. -/

namespace Sys2Proof

theorem Encoding.fits_iff (e : Encoding) (w : Word) :
    e.fits w = true ↔ topField w = e.top ∧ lField w = false := by
  simp [Encoding.fits]

/-- Bits 31:22 tell all six rows apart, across the sets (30_encoding.md R80). -/
theorem Encoding.top_injective {e k : Encoding} (h : e.top = k.top) : e = k := by
  cases e <;> cases k <;> revert h <;> decide

theorem Encoding.encodeWord_instr (e : Encoding) (W : Bool) (sb : BitVec 15) (mode : BitVec 5) :
    (e.instr W sb mode).encodeWord = wordOfFields e.top W sb mode := by
  cases e <;> rfl

theorem Encoding.iset_ne_a64 (e : Encoding) : e.iset ≠ .a64 := by
  cases e <;> decide

/-- No two instructions share a word: its top bits name the row, and the other fields the operands. -/
theorem Instr.encodeWord_injective {i j : Instr} (h : i.encodeWord = j.encodeWord) : i = j := by
  obtain ⟨htop, hW, -, hsb, hmode⟩ := Laws.EncodedFields.of_fields i
  obtain ⟨htop', hW', -, hsb', hmode'⟩ := Laws.EncodedFields.of_fields j
  rw [h] at htop hW hsb hmode
  have hencoding := Encoding.top_injective (htop.symm.trans htop')
  rw [← i.instr_fields, ← j.instr_fields, hencoding, ← hW, hW', ← hsb, hsb', ← hmode, hmode']

/-- A word decodes to an instruction exactly where it is that instruction's word, in its own set. -/
theorem decodeWord_eq_some_iff_encodeWord (iset : InstrSet) (w : Word) (i : Instr) :
    decodeWord iset w = some i ↔ iset = i.iset ∧ w = i.encodeWord := by
  rw [decodeWord_eq_some_iff]
  constructor
  · rintro ⟨e, hiset, hfits, rfl⟩
    obtain ⟨htop, hL⟩ := (e.fits_iff w).mp hfits
    refine ⟨by simp [Instr.iset, hiset], ?_⟩
    rw [Encoding.encodeWord_instr, ← htop, wordOfFields_fields w hL]
  · rintro ⟨rfl, rfl⟩
    obtain ⟨htop, hW, hL, hsb, hmode⟩ := Laws.EncodedFields.of_fields i
    refine ⟨i.encoding, rfl, (Encoding.fits_iff ..).mpr ⟨htop, hL⟩, ?_⟩
    rw [hW, hsb, hmode, i.instr_fields]

/-- Settles O5: the word is the word of one instruction only, which has one set, and that is not
A64. -/
theorem noWordIsAnInstructionInTwoSets : Obligations.NoWordIsAnInstructionInTwoSets := by
  intro w a b i j hi hj
  obtain ⟨rfl, rfl⟩ := (decodeWord_eq_some_iff_encodeWord ..).mp hi
  obtain ⟨rfl, hword⟩ := (decodeWord_eq_some_iff_encodeWord ..).mp hj
  exact ⟨congrArg Instr.iset (Instr.encodeWord_injective hword), i.encoding.iset_ne_a64⟩

/-- Two words put together from parts of the same widths agree only part by part. -/
theorem bits_append_eq_append_iff {m n : Nat} {x x' : BitVec m} {y y' : BitVec n} :
    x ++ y = x' ++ y' ↔ x = x' ∧ y = y' := by
  constructor
  · intro h
    have hlow := congrArg (BitVec.extractLsb' 0 n) h
    rw [BitVec.extractLsb'_append_eq_right, BitVec.extractLsb'_append_eq_right] at hlow
    subst hlow
    exact ⟨(BitVec.append_left_inj y).mp h, rfl⟩
  · rintro ⟨rfl, rfl⟩
    rfl

/-- `w & mask == match` is the decoder's own test of a row (30_encoding.md R81). -/
theorem Encoding.fits_iff_and_selectMask (e : Encoding) (w : Word) :
    e.fits w = true ↔ w &&& 0xFFD00000#32 = Table.matchValue e := by
  have hmatch : Table.matchValue e = e.top ++ 0#1 ++ BitVec.ofBool false ++ 0#20 := by
    cases e <;> rfl
  rw [fits_iff, and_selectMask, hmatch, BitVec.append_left_inj, bits_append_eq_append_iff,
    BitVec.append_left_inj]
  cases lField w <;> simp

/-- `w & 0x000FFFE0 == should_be` is the test of the should-be bits (30_encoding.md R81). -/
theorem sbField_eq_shouldBe_iff (e : Encoding) (w : Word) :
    sbField w = e.shouldBe ↔ w &&& 0x000FFFE0#32 = Table.shouldBe e := by
  have hshouldBe : Table.shouldBe e = 0#12 ++ e.shouldBe ++ 0#5 := by
    cases e <;> rfl
  rw [and_shouldBeMask, hshouldBe, BitVec.append_left_inj, BitVec.append_right_inj]

theorem Instr.wf_iff (i : Instr) : i.wf = true ↔ i.sb = i.encoding.shouldBe :=
  beq_iff_eq

/-- Settles O3: the word's own fields make the instruction of the row that it fits. -/
theorem decodingFollowsTheOpcodeTable : Obligations.DecodingFollowsTheOpcodeTable := by
  intro e w
  constructor
  · intro hmatch
    have hfits := (e.fits_iff_and_selectMask w).mpr hmatch
    refine ⟨e.instr (wField w) (sbField w) (modeField w),
      (decodeWord_eq_some_iff ..).mpr ⟨e, rfl, hfits, rfl⟩, by simp, by simp [wField],
      by simp [modeField], ?_⟩
    simp [Instr.wf_iff, sbField_eq_shouldBe_iff]
  · intro i hi hencoding
    obtain ⟨k, -, hfits, rfl⟩ := (decodeWord_eq_some_iff ..).mp hi
    rw [Encoding.instr_encoding] at hencoding
    exact hencoding ▸ (k.fits_iff_and_selectMask w).mp hfits

/-- The mode number is added to a word whose bits 4:0 are zero. -/
theorem append_mode_eq_add (x : BitVec 27) (mode : BitVec 5) :
    x ++ mode = x ++ 0#5 + mode.setWidth 32 := by
  rw [BitVec.setWidth_eq_append (by decide : 5 ≤ 32)]
  exact (BitVec.append_zero_add_zero_append ..).symm

/-- Settles O4: without the mode number the word is one of the table's, with or without bit 21. -/
theorem canonicalWordsAreTheTables : Obligations.CanonicalWordsAreTheTables := by
  intro e W mode
  rw [Encoding.encodeWord_instr, wordOfFields, append_mode_eq_add]
  congr 1
  cases e <;> cases W <;> rfl

/-- Settles O6: each clause is the decoder run on one word. -/
theorem sampleWordsDecodeAsTheSpecSays : Obligations.SampleWordsDecodeAsTheSpecSays := by
  unfold Obligations.SampleWordsDecodeAsTheSpecSays
  decide

end Sys2Proof
end

section
/-! Instruction bytes (30_encoding.md R74): decoding reads one word from the first four bytes. -/

namespace Sys2Proof

/-- Bytes decode exactly where a word that decodes is laid out in front. -/
theorem decode_eq_ok_iff (iset : InstrSet) (bs : List Byte) (i : Instr) (rest : List Byte) :
    decode iset bs = .ok (i, rest) ↔
      ∃ w, bs = layout iset w ++ rest ∧ decodeWord iset w = some i := by
  constructor
  · intro h
    unfold decode at h
    split at h
    next b0 b1 b2 b3 rest' =>
      split at h
      next j hw =>
        cases h
        exact ⟨wordOfBytes iset b0 b1 b2 b3, by rw [layout_wordOfBytes]; rfl, hw⟩
      next => cases h
    next => cases h
  · rintro ⟨w, rfl, hw⟩
    obtain ⟨b0, b1, b2, b3, hlayout, hword⟩ := wordOfBytes_layout iset w
    simp [hlayout, decode, hword, hw]

/-- The bytes of one instruction decode to it, and only they do. -/
theorem decode_eq_ok_iff_encode (iset : InstrSet) (bs : List Byte) (i : Instr) (rest : List Byte) :
    decode iset bs = .ok (i, rest) ↔ iset = i.iset ∧ bs = encode i ++ rest := by
  rw [decode_eq_ok_iff]
  constructor
  · rintro ⟨w, rfl, hw⟩
    obtain ⟨rfl, rfl⟩ := (decodeWord_eq_some_iff_encodeWord ..).mp hw
    exact ⟨rfl, rfl⟩
  · rintro ⟨rfl, rfl⟩
    exact ⟨i.encodeWord, rfl, (decodeWord_eq_some_iff_encodeWord ..).mpr ⟨rfl, rfl⟩⟩

/-- Settles O1: an instruction's own bytes in front are what `decode_eq_ok_iff_encode` asks for. -/
theorem decodeOfEncodeIsTheInstruction : Obligations.DecodeOfEncodeIsTheInstruction :=
  fun _ _ => (decode_eq_ok_iff_encode ..).mpr ⟨rfl, rfl⟩

/-- Settles O2: no other bytes decode to the instruction, in no other set. -/
theorem encodeOfDecodeIsTheBytes : Obligations.EncodeOfDecodeIsTheBytes :=
  fun _ _ _ _ h => (decode_eq_ok_iff_encode ..).mp h

end Sys2Proof
end

section
/-! What the encoding decides in a step (30_encoding.md R75, R76, R79): a word that is no SRS, should-be
bits that differ, and the Decode lines. -/

namespace Sys2Proof.Machine

theorem fetchInstr_eq_notSRS {s : State} {bs : List Byte} {w : Word} (hfetch : fetch s = .bytes bs)
    (hdecode : decode s.iset bs = .error (.notSRS w)) :
    fetchInstr s = .error (.notSRS s.pc w) := by
  simp only [fetchInstr, hfetch, hdecode]

/-- Settles O52: the word is fetched, and the fetch refuses it before anything is executed. -/
theorem wordsThatAreNotSrsAreRefused : Obligations.WordsThatAreNotSrsAreRefused := by
  intro s b0 b1 b2 b3 rest haligned hbytes hword
  have hroom : programOffset s + 4 ≤ s.program.bytes.length := by
    have hlength := congrArg List.length hbytes
    simp only [List.length_drop, List.length_cons] at hlength
    omega
  have hfetch := fetch_eq_bytes haligned hroom
  have hdecode : decode s.iset (s.program.bytes.drop (programOffset s)) =
      .error (.notSRS (wordOfBytes s.iset b0 b1 b2 b3)) := by
    simp only [hbytes, decode, hword]
  simp only [step, fetchInstr_eq_notSRS hfetch hdecode]

/-- Settles O33: should-be bits are the first check after the current mode, and case 0 is no choice of
the configuration. -/
theorem violatedShouldBeBitsAreCaseZero : Obligations.ViolatedShouldBeBitsAreCaseZero := by
  intro e W sb mode s hmode hsb
  obtain ⟨cur, hcur⟩ := Option.isSome_iff_exists.mp hmode
  simp [exec_instr, srs, hcur, hsb, resolveUnpredictable, raiseUnpredictable]

/-- Settles O9: each clause is an arm of `decodeLine` or of `classOf`. -/
theorem decodeLinesSetTheThreeVariables : Obligations.DecodeLinesSetTheThreeVariables := by
  refine ⟨fun _ _ _ => rfl, fun _ => rfl, fun _ => rfl, fun e => ?_,
    fun _ => ⟨rfl, rfl, rfl, rfl, rfl, rfl⟩⟩
  cases e <;> rfl

end Sys2Proof.Machine
end

section
/-! Assembler syntax (30_encoding.md R82 to R88): what a line assembles to, and which parts of the
line it depends on. -/

namespace Sys2Proof

/-- A mnemonic names encodings of the set it is looked up in only. -/
theorem AsmMnemonic.iset_of_encoding {iset : InstrSet} {m : AsmMnemonic} {e : Encoding}
    (h : m.encoding iset = some e) : e.iset = iset := by
  cases iset <;> cases m <;> cases h <;> rfl

theorem Encoding.encoding_mnemonic (e : Encoding) : e.mnemonic.encoding e.iset = some e := by
  cases e <;> rfl

theorem assemble_eq_some_iff (iset : InstrSet) (l : AsmLine) (i : Instr) :
    assemble iset l = some i ↔
      ∃ e, l.mnemonic.encoding iset = some e ∧ condAccepted iset l.cond = true ∧
        widthAccepted l.width = true ∧ l.mode < 32 ∧
        i = e.instr l.bang e.shouldBe (BitVec.ofNat 5 l.mode) := by
  unfold assemble
  cases l.mnemonic.encoding iset with
  | none => simp
  | some e => simp [and_assoc, @eq_comm _ i]

theorem condAccepted_none (iset : InstrSet) : condAccepted iset none = true := by
  cases iset <;> rfl

/-- A line without a condition is accepted, its mode number fits, and its should-be bits are the
canonical ones that the assembler puts there. -/
theorem assemble_disassemble {i : Instr} (h : i.wf = true) :
    assemble i.iset (disassemble i) = some i := by
  refine (assemble_eq_some_iff ..).mpr
    ⟨i.encoding, i.encoding.encoding_mnemonic, condAccepted_none _, rfl, i.mode.isLt, ?_⟩
  rw [← i.wf_iff.mp h]
  simp [disassemble, i.instr_fields]

/-- What an assembled instruction owes to its line. -/
theorem fields_of_assemble {iset : InstrSet} {l : AsmLine} {i : Instr}
    (h : assemble iset l = some i) :
    i.wf = true ∧ i.iset = iset ∧ i.W = l.bang ∧ i.mode.toNat = l.mode := by
  obtain ⟨e, hmnemonic, -, -, hmode, rfl⟩ := (assemble_eq_some_iff ..).mp h
  exact ⟨by simp [Instr.wf_iff], by simp [Instr.iset, AsmMnemonic.iset_of_encoding hmnemonic],
    by simp, by simp [Nat.mod_eq_of_lt hmode]⟩

/-- Of the condition only whether it is accepted counts (30_encoding.md R84). -/
theorem assemble_cond {iset : InstrSet} {c d : Option AsmCond}
    (h : condAccepted iset c = condAccepted iset d) (l : AsmLine) :
    assemble iset { l with cond := c } = assemble iset { l with cond := d } := by
  simp only [assemble, h]

/-- Of the width only whether it is accepted counts (30_encoding.md R85). -/
theorem assemble_width {q r : Option AsmWidth} (h : widthAccepted q = widthAccepted r)
    (iset : InstrSet) (l : AsmLine) :
    assemble iset { l with width := q } = assemble iset { l with width := r } := by
  simp only [assemble, h]

/-- Of the mnemonic only the encoding it names counts (30_encoding.md R83). -/
theorem assemble_mnemonic {iset : InstrSet} {m n : AsmMnemonic}
    (h : m.encoding iset = n.encoding iset) (l : AsmLine) :
    assemble iset { l with mnemonic := m } = assemble iset { l with mnemonic := n } := by
  simp only [assemble, h]

theorem assemble_eq_none_of_encoding {iset : InstrSet} {l : AsmLine}
    (h : l.mnemonic.encoding iset = none) : assemble iset l = none := by
  simp only [assemble, h]

theorem assemble_eq_none_of_cond {iset : InstrSet} {l : AsmLine}
    (h : condAccepted iset l.cond = false) : assemble iset l = none := by
  simp [Option.eq_none_iff_forall_ne_some, assemble_eq_some_iff, h]

theorem assemble_eq_none_of_width {iset : InstrSet} {l : AsmLine}
    (h : widthAccepted l.width = false) : assemble iset l = none := by
  simp [Option.eq_none_iff_forall_ne_some, assemble_eq_some_iff, h]

/-- Settles O7: of `<c>` and `<q>` only whether they are accepted counts, so each clause about them
is an evaluation of `condAccepted` or `widthAccepted`. -/
theorem assembleAndDisassembleAgree : Obligations.AssembleAndDisassembleAgree := by
  refine ⟨fun i => assemble_disassemble, fun iset l i => fields_of_assemble,
    fun iset l => ⟨fun hiset => assemble_eq_none_of_cond ?_, assemble_cond ?_ l,
      fun c => assemble_cond rfl l, assemble_eq_none_of_width rfl, assemble_width rfl iset l⟩⟩
  · cases iset with
    | t32 => exact absurd rfl hiset
    | _ => rfl
  · cases iset <;> rfl

/-- Settles O8: the two mnemonics name one encoding in each set, and T32 has none for SRSDA and
SRSIB. -/
theorem pseudoInstructionsExpand : Obligations.PseudoInstructionsExpand := by
  intro iset l
  refine ⟨assemble_mnemonic ?_ l, assemble_mnemonic ?_ l, assemble_mnemonic ?_ l,
    assemble_mnemonic ?_ l, assemble_mnemonic ?_ l, assemble_eq_none_of_encoding rfl,
    assemble_eq_none_of_encoding rfl⟩ <;> cases iset <;> rfl

end Sys2Proof
end

section
/-! A canonical SRS from a ready state (40_srs.md R108 to R111, R116 to R121): the state it completes
in, written with the columns of the address table of R109. -/

namespace Sys2Proof.Machine

variable {e : Encoding} {W : Bool} {cur target : Mode} {s t : State} {address lrv spsrv : Word}

theorem writebackValue_decodeLine (e : Encoding) (W : Bool) (base : Word) :
    writebackValue (decodeLine (classOf e) W) base = Table.newBase e base := by
  cases e <;> rfl

/-- The operation proper in terms of the address table. -/
theorem bodyState_decodeLine (e : Encoding) (W : Bool) (cur target : Mode) (spsrv : Word)
    (s : State) :
    bodyState (classOf e) (decodeLine (classOf e) W) cur target spsrv s =
      complete (classOf e)
        { s with
          mem := pairMem s (Table.lrAddress e (readSP s target)) (readLR s cur) spsrv
          sp := if W then setSpBank s.sp target (Table.newBase e (readSP s target)) else s.sp } := by
  rw [bodyState_eq, storeAddress_decodeLine, decodeLine_wback, writebackValue_decodeLine]
  rfl

theorem exec_of_ready (h : ready s cur target (Table.lrAddress e (readSP s target)))
    (hspsr : readSPSR s cur = some spsrv) (hcond : condPassed (classOf e) s = true) :
    exec (e.instr W e.shouldBe target.num) s =
      .next (bodyState (classOf e) (decodeLine (classOf e) W) cur target spsrv s) := by
  rw [← storeAddress_decodeLine e W] at h
  rw [exec_instr, srs_of_ready h hspsr hcond]

/-- What a ready state becomes, in terms of the address table. -/
theorem exec_of_ready_eq_complete (h : ready s cur target (Table.lrAddress e (readSP s target)))
    (hspsr : readSPSR s cur = some spsrv) (hcond : condPassed (classOf e) s = true) :
    exec (e.instr W e.shouldBe target.num) s =
      .next (complete (classOf e)
        { s with
          mem := pairMem s (Table.lrAddress e (readSP s target)) (readLR s cur) spsrv
          sp := if W then setSpBank s.sp target (Table.newBase e (readSP s target)) else s.sp }) := by
  rw [exec_of_ready h hspsr hcond, bodyState_decodeLine]

/-- Settles O10: the row SRSDA of the address table, in A1. -/
theorem srsdaStoresAndCompletes : Obligations.SrsdaStoresAndCompletes :=
  fun _ _ _ _ _ h hspsr => exec_of_ready_eq_complete (e := .srsdaA1) h hspsr rfl

/-- Settles O11: the rows SRSDB of the address table, in A1 and in T1. -/
theorem srsdbStoresAndCompletes : Obligations.SrsdbStoresAndCompletes :=
  fun _ _ _ _ _ h hspsr =>
    ⟨exec_of_ready_eq_complete (e := .srsdbA1) h hspsr rfl,
      fun hcond => exec_of_ready_eq_complete (e := .srsT1) h hspsr hcond⟩

/-- Settles O12: the rows SRSIA of the address table, in A1 and in T2. -/
theorem srsiaStoresAndCompletes : Obligations.SrsiaStoresAndCompletes :=
  fun _ _ _ _ _ h hspsr =>
    ⟨exec_of_ready_eq_complete (e := .srsiaA1) h hspsr rfl,
      fun hcond => exec_of_ready_eq_complete (e := .srsT2) h hspsr hcond⟩

/-- Settles O13: the row SRSIB of the address table, in A1. -/
theorem srsibStoresAndCompletes : Obligations.SrsibStoresAndCompletes :=
  fun _ _ _ _ _ h hspsr => exec_of_ready_eq_complete (e := .srsibA1) h hspsr rfl

theorem readSP_bodyState_same :
    readSP (bodyState (classOf e) (decodeLine (classOf e) true) cur target spsrv s) target =
      Table.newBase e (readSP s target) := by
  rw [bodyState, readSP_complete, writeback, if_pos (decodeLine_wback _ _), readSP_writeSP_same,
    writebackValue_decodeLine]

/-- After the two stores LR stands at the address and SPSR 4 above, in the configured byte order. -/
theorem holdsWord_of_mem_eq_pairMem (hmem : t.mem = pairMem s address lrv spsrv)
    (hcfg : t.cfg = s.cfg) : holdsWord t address lrv ∧ holdsWord t (address + 4#32) spsrv := by
  constructor
  · intro k hk
    simp only [readByte, hmem, hcfg]
    exact memGet_pairMem_lower s address lrv spsrv k (by simpa using hk)
  · intro k hk
    simp only [readByte, hmem, hcfg]
    exact memGet_pairMem_upper s address lrv spsrv k (by simpa using hk)

/-- Settles O14: the two words stand where the pair of stores puts them, and no other byte is
reached. -/
theorem storedWordsFollowTheAddressTable : Obligations.StoredWordsFollowTheAddressTable := by
  intro e s cur target W spsrv h hspsr hcond
  rw [spsrAddress_eq_lrAddress_add]
  refine ⟨rfl, _, exec_of_ready h hspsr hcond, ?_⟩
  obtain ⟨hlr, hspsrWord⟩ := holdsWord_of_mem_eq_pairMem
    (t := bodyState (classOf e) (decodeLine (classOf e) W) cur target spsrv s)
    (by rw [bodyState_decodeLine]; rfl) bodyState_keepsStatus.cfg
  refine ⟨hlr, hspsrWord, fun a ha => ?_, ?_⟩
  · rw [← storeAddress_decodeLine e W] at ha
    exact readByte_bodyState_outside ha
  · rintro rfl
    exact readSP_bodyState_same

theorem newBase_eq_of_increments (e : Encoding) (base : Word) :
    Table.newBase e base = if Table.increments e then base + 8#32 else base - 8#32 := by
  cases e <;> rfl

/-- Settles O15: of the registers the operation proper writes the specified mode's SP only, and that
only with writeback. -/
theorem writebackMovesOnlyTheSpecifiedSp : Obligations.WritebackMovesOnlyTheSpecifiedSp := by
  intro e s cur target W spsrv h hspsr hcond
  refine ⟨_, exec_of_ready h hspsr hcond, ?_, ?_, fun k hk => readSP_bodyState_other hk, ?_, ?_,
    bodyState_keepsStatus.spsr, ?_⟩
  · rw [bodyState_decodeLine]
    rfl
  · rintro rfl
    rw [readSP_bodyState_same, newBase_eq_of_increments]
  · rw [bodyState_eq]
  · rw [bodyState_eq]
  · rintro rfl
    rw [bodyState_decodeLine]
    rfl

end Sys2Proof.Machine
end

section
/-! What a canonical SRS whose condition passes does with each answer of the checks (40_srs.md R101 to
R107, R113). -/

namespace Sys2Proof.Machine

variable {e : Encoding} {W : Bool} {mode : BitVec 5} {cur : Mode} {s : State}

theorem exec_eq_srsAfterChecks (hcur : currentMode s = some cur)
    (hcond : condPassed (classOf e) s = true) :
    exec (e.instr W e.shouldBe mode) s =
      srsAfterChecks (classOf e) (decodeLine (classOf e) W) cur (srsCheck s cur mode) s := by
  simp [exec_instr, srs, hcur, hcond]

theorem exec_of_condition_failed (hcur : (currentMode s).isSome = true)
    (hcond : condPassed (classOf e) s = false) :
    exec (e.instr W e.shouldBe mode) s = .next (complete (classOf e) s) := by
  obtain ⟨cur, hcur⟩ := Option.isSome_iff_exists.mp hcur
  simp [exec_instr, srs, hcur, hcond]

/-- Settles O18: the condition is asked before every check, and completion uses up the input. -/
theorem failedConditionOnlyMovesOn : Obligations.FailedConditionOnlyMovesOn := by
  intro s W mode inputs hcur hinputs
  have hcond : s.condInputs.headD true = false := by rw [hinputs]; rfl
  obtain rfl : s.condInputs.tail = inputs := by rw [hinputs]; rfl
  exact ⟨exec_of_condition_failed (e := .srsT1) hcur hcond,
    exec_of_condition_failed (e := .srsT2) hcur hcond⟩

/-! ### The answers of the checks -/

/-- Every answer of the checks, in their order (40_srs.md R107). -/
theorem srsCheck_cases (s : State) (cur : Mode) (mode : BitVec 5) :
    (s.EL = el2 ∧ srsCheck s cur mode = .undefined) ∨
    (s.EL ≠ el2 ∧ (cur = .usr ∨ cur = .sys) ∧
      srsCheck s cur mode = .unpredictable .userOrSystem) ∨
    (s.EL ≠ el2 ∧ ¬(cur = .usr ∨ cur = .sys) ∧
      ((mode = Mode.hyp.num ∧ srsCheck s cur mode = .unpredictable .hypMode) ∨
       (mode = Mode.mon.num ∧ srsCheck s cur mode = checkMonitor s) ∨
       (badMode s.cfg mode = true ∧ srsCheck s cur mode = .unpredictable .badMode) ∨
       (badMode s.cfg mode = false ∧ ∃ target, srsCheck s cur mode = .proceed target))) := by
  by_cases hel : s.EL = el2
  · exact .inl ⟨hel, if_pos hel⟩
  by_cases hcur : cur = .usr ∨ cur = .sys
  · exact .inr (.inl ⟨hel, hcur, by rw [srsCheck, if_neg hel, if_pos hcur]⟩)
  refine .inr (.inr ⟨hel, hcur, ?_⟩)
  rw [srsCheck, if_neg hel, if_neg hcur]
  cases hmode : Mode.ofNum mode with
  | none => exact .inr (.inr (.inl ⟨badMode_of_ofNum_eq_none s.cfg hmode, rfl⟩))
  | some k =>
    obtain rfl := Mode.num_of_ofNum hmode
    cases k with
    | hyp => exact .inl ⟨rfl, rfl⟩
    | mon => exact .inr (.inl ⟨rfl, rfl⟩)
    | _ =>
      refine .inr (.inr ?_)
      dsimp only
      split
      · next hbad => exact .inl ⟨hbad, rfl⟩
      · next hgood => exact .inr ⟨Bool.eq_false_iff.mpr hgood, _, rfl⟩

theorem srsCheck_of_userOrSystem (hel : s.EL ≠ el2) (hcur : cur = .usr ∨ cur = .sys)
    (mode : BitVec 5) : srsCheck s cur mode = .unpredictable .userOrSystem := by
  rw [srsCheck, if_neg hel, if_pos hcur]

theorem not_userOrSystem_of_savesReturnState (hsaves : savesReturnState cur) :
    ¬(cur = .usr ∨ cur = .sys) := by
  rintro (rfl | rfl)
  · simp [savesReturnState] at hsaves
  · simp [savesReturnState] at hsaves

theorem srsCheck_hyp (hel : s.EL ≠ el2) (hcur : ¬(cur = .usr ∨ cur = .sys)) :
    srsCheck s cur Mode.hyp.num = .unpredictable .hypMode := by
  rw [srsCheck, if_neg hel, if_neg hcur, Mode.ofNum_num]

theorem srsCheck_mon (hel : s.EL ≠ el2) (hcur : ¬(cur = .usr ∨ cur = .sys)) :
    srsCheck s cur Mode.mon.num = checkMonitor s := by
  rw [srsCheck, if_neg hel, if_neg hcur, Mode.ofNum_num]

theorem srsCheck_of_caseFour (hel : s.EL ≠ el2) (hcur : ¬(cur = .usr ∨ cur = .sys))
    (hfour : isCaseFour s.cfg mode) : srsCheck s cur mode = .unpredictable .badMode := by
  obtain ⟨hbad, hhyp, hmon⟩ := hfour
  obtain ⟨h, -⟩ | ⟨-, h, -⟩ | ⟨-, -, ⟨h, -⟩ | ⟨h, -⟩ | ⟨-, h⟩ | ⟨h, -⟩⟩ :=
    srsCheck_cases s cur mode
  · exact absurd h hel
  · exact absurd h hcur
  · exact absurd h hhyp
  · exact absurd h hmon
  · exact h
  · simp [hbad] at h

/-- Monitor without EL3 or outside Secure state is case 3 (40_srs.md R105 (a)). -/
theorem checkMonitor_of_not_secure_el3 (h : s.cfg.haveEL3 = false ∨ s.ss ≠ .secure) :
    checkMonitor s = .unpredictable .monitorMode := by
  obtain h | h := h <;> simp [checkMonitor, h]

/-- From Secure state with EL3 its instruction set decides (40_srs.md R105 (b), (c)). -/
theorem checkMonitor_of_secure (hel3 : s.cfg.haveEL3 = true) (hss : s.ss = .secure) :
    checkMonitor s = if s.cfg.el3AArch32 then .proceed .mon else .monitorModeTrap := by
  cases h : s.cfg.el3AArch32 <;> simp [checkMonitor, hel3, hss, h]

theorem checkMonitor_eq_monitorModeTrap_iff :
    checkMonitor s = .monitorModeTrap ↔
      s.cfg.haveEL3 = true ∧ s.ss = .secure ∧ s.cfg.el3AArch32 = false := by
  by_cases h : s.cfg.haveEL3 = false ∨ s.ss ≠ .secure
  · rw [checkMonitor_of_not_secure_el3 h]
    simp only [reduceCtorEq, false_iff]
    rintro ⟨hel3, hss, -⟩
    simp [hel3, hss] at h
  · obtain ⟨hel3, hss⟩ : s.cfg.haveEL3 = true ∧ s.ss = .secure := by simpa using h
    rw [checkMonitor_of_secure hel3 hss]
    cases s.cfg.el3AArch32 <;> simp [hel3, hss]

theorem checkMonitor_ne_undefined (s : State) : checkMonitor s ≠ .undefined := by
  by_cases h : s.cfg.haveEL3 = false ∨ s.ss ≠ .secure
  · simp [checkMonitor_of_not_secure_el3 h]
  · obtain ⟨hel3, hss⟩ : s.cfg.haveEL3 = true ∧ s.ss = .secure := by simpa using h
    rw [checkMonitor_of_secure hel3 hss]
    cases s.cfg.el3AArch32 <;> simp

theorem srsCheck_eq_undefined_iff : srsCheck s cur mode = .undefined ↔ s.EL = el2 := by
  refine ⟨fun h => ?_, fun hel => if_pos hel⟩
  obtain ⟨hel, -⟩ | ⟨-, -, hk⟩ | ⟨-, -, ⟨-, hk⟩ | ⟨-, hk⟩ | ⟨-, hk⟩ | ⟨-, _, hk⟩⟩ :=
    srsCheck_cases s cur mode
  · exact hel
  · simp [hk] at h
  · simp [hk] at h
  · exact absurd (hk.symm.trans h) (checkMonitor_ne_undefined s)
  · simp [hk] at h
  · simp [hk] at h

theorem srsCheck_eq_monitorModeTrap_iff :
    srsCheck s cur mode = .monitorModeTrap ↔
      s.EL ≠ el2 ∧ ¬(cur = .usr ∨ cur = .sys) ∧ mode = Mode.mon.num ∧
        checkMonitor s = .monitorModeTrap := by
  constructor
  · intro h
    obtain ⟨-, hk⟩ | ⟨-, -, hk⟩ | ⟨hel, hcur, ⟨-, hk⟩ | ⟨hmode, hk⟩ | ⟨-, hk⟩ | ⟨-, _, hk⟩⟩ :=
      srsCheck_cases s cur mode
    · simp [hk] at h
    · simp [hk] at h
    · simp [hk] at h
    · exact ⟨hel, hcur, hmode, hk ▸ h⟩
    · simp [hk] at h
    · simp [hk] at h
  · rintro ⟨hel, hcur, rfl, h⟩
    rw [srsCheck_mon hel hcur, h]

/-! ### Raises without a CONSTRAINED UNPREDICTABLE case -/

/-- Hyp is a current mode at EL2 (10_state.md R34). -/
theorem currentMode_isSome_of_el2 (hM : (Mode.ofNum s.M).isSome = true) (hel : s.EL = el2) :
    (currentMode s).isSome = true := by
  obtain ⟨cur, hcur⟩ := Option.isSome_iff_exists.mp hM
  rw [currentMode_of_num (Mode.num_of_ofNum hcur).symm fun _ => hel]
  rfl

theorem exec_eq_undefined_of_el2 (hcur : (currentMode s).isSome = true) (hcond : condPassed (classOf e) s = true)
    (hel : s.EL = el2) : exec (e.instr W e.shouldBe mode) s = .fault (.undefined s.pc none) := by
  obtain ⟨cur, hcur⟩ := Option.isSome_iff_exists.mp hcur
  rw [exec_eq_srsAfterChecks hcur hcond, srsCheck_eq_undefined_iff.mpr hel]
  rfl

/-- Settles O22: at EL2 every mode number is a current mode, and the checks ask for EL2 first. -/
theorem undefinedAtEl2WhateverTheMode : Obligations.UndefinedAtEl2WhateverTheMode :=
  fun _ _ _ _ hM hcond hel => exec_eq_undefined_of_el2 (currentMode_isSome_of_el2 hM hel) hcond hel

/-- A raise that no CONSTRAINED UNPREDICTABLE case and no store makes is the answer of a check. -/
theorem check_of_exec_fault {f : Fault} {sb : BitVec 15}
    (h : exec (e.instr W sb mode) s = .fault f)
    (hf : (∃ p, f = .undefined p none) ∨ ∃ p, f = .monitorModeTrap p) :
    ∃ cur, currentMode s = some cur ∧ sb = e.shouldBe ∧ condPassed (classOf e) s = true ∧
      (srsCheck s cur mode = .undefined ∧ f = .undefined s.pc none ∨
        srsCheck s cur mode = .monitorModeTrap ∧ f = .monitorModeTrap s.pc) := by
  rw [exec_instr] at h
  obtain ⟨cur, hcur, ⟨-, rfl⟩ | ⟨hsb, hcond, hcase⟩⟩ := srs_fault_cases h
  · simp at hf
  refine ⟨cur, hcur, hsb, hcond, ?_⟩
  obtain hundef | htrap | ⟨k, -, rfl | rfl⟩ | ⟨target, -, rfl | ⟨x, rfl⟩⟩ | ⟨-, -, x, rfl⟩ := hcase
  · exact .inl hundef
  · exact .inr htrap
  all_goals simp at hf

/-- Settles O40: no case and no store raises it, and of the checks only the one for EL2 does. -/
theorem undefinedExactlyAtEl2 : Obligations.UndefinedExactlyAtEl2 := by
  intro e W sb mode s p
  constructor
  · intro h
    obtain ⟨cur, hcur, hsb, hcond, ⟨hcheck, hf⟩ | ⟨-, hf⟩⟩ :=
      check_of_exec_fault h (.inl ⟨p, rfl⟩)
    · obtain rfl : p = s.pc := by simpa using hf
      exact ⟨rfl, by simp [hcur], hsb, hcond, srsCheck_eq_undefined_iff.mp hcheck⟩
    · simp at hf
  · rintro ⟨rfl, hcur, rfl, hcond, hel⟩
    exact exec_eq_undefined_of_el2 hcur hcond hel

theorem Mode.num_eq_num_iff {m k : Mode} : m.num = k.num ↔ m = k :=
  ⟨Mode.num_injective, congrArg Mode.num⟩

/-- Being in User or System mode, read off `M`. -/
theorem not_userOrSystem_iff (hcur : currentMode s = some cur) :
    ¬(cur = .usr ∨ cur = .sys) ↔ s.M ≠ 0b10000#5 ∧ s.M ≠ 0b11111#5 := by
  have husr : s.M = 0b10000#5 ↔ cur = .usr := currentMode_num hcur ▸ Mode.num_eq_num_iff (k := .usr)
  have hsys : s.M = 0b11111#5 ↔ cur = .sys := currentMode_num hcur ▸ Mode.num_eq_num_iff (k := .sys)
  rw [not_or, ← husr, ← hsys]

/-- Settles O39: no case and no store traps, and the checks do on Monitor's condition only. -/
theorem monitorTrapExactlyOnItsCondition : Obligations.MonitorTrapExactlyOnItsCondition := by
  intro e W sb mode s p
  constructor
  · intro h
    obtain ⟨cur, hcur, hsb, hcond, ⟨-, hf⟩ | ⟨hcheck, hf⟩⟩ :=
      check_of_exec_fault h (.inr ⟨p, rfl⟩)
    · simp at hf
    · obtain rfl : p = s.pc := by simpa using hf
      obtain ⟨hel, hmodes, hmode, hmon⟩ := srsCheck_eq_monitorModeTrap_iff.mp hcheck
      obtain ⟨husr, hsys⟩ := (not_userOrSystem_iff hcur).mp hmodes
      exact ⟨rfl, by simp [hcur], hsb, hcond, hel, husr, hsys, hmode,
        checkMonitor_eq_monitorModeTrap_iff.mp hmon⟩
  · rintro ⟨rfl, hcur, rfl, hcond, hel, husr, hsys, hmode, hmon⟩
    obtain ⟨cur, hcur⟩ := Option.isSome_iff_exists.mp hcur
    have hcheck : srsCheck s cur mode = .monitorModeTrap :=
      srsCheck_eq_monitorModeTrap_iff.mpr ⟨hel, (not_userOrSystem_iff hcur).mpr ⟨husr, hsys⟩, hmode,
        checkMonitor_eq_monitorModeTrap_iff.mpr hmon⟩
    rw [exec_eq_srsAfterChecks hcur hcond, hcheck]
    rfl

end Sys2Proof.Machine
end

section
/-! The CONSTRAINED UNPREDICTABLE cases of a canonical SRS whose condition passes (40_srs.md R103 to
R106, R113): cases 1 to 3 and their three resolutions, case 4 and its five. -/

namespace Sys2Proof.Machine

variable {e : Encoding} {W : Bool} {mode : BitVec 5} {cur : Mode} {s : State}

/-- Settles O26: each clause is an arm of `resolveCu`. -/
theorem casesOneToThreeResolveInThreeWays : Obligations.CasesOneToThreeResolveInThreeWays :=
  fun _ _ _ => ⟨rfl, rfl, rfl⟩

/-- An outcome that `resolveCu` decides, by the configuration's choice. -/
theorem resolutions_of_eq_resolveCu {o : Result} {c : EncClass} {choice : CuChoice} {case : CuCase}
    (h : o = resolveCu c choice case s) :
    (choice = .keep → o = .fault (.unpredictable s.pc case)) ∧
    (choice = .undef → o = .fault (.undefined s.pc (some case))) ∧
    (choice = .nop → o = .next (complete c s)) := by
  subst h
  refine ⟨?_, ?_, ?_⟩
  · rintro rfl; rfl
  · rintro rfl; rfl
  · rintro rfl; rfl

/-- A mode that saves a return state is the current mode. -/
theorem currentMode_of_savesReturnState (hM : s.M = cur.num) (hsaves : savesReturnState cur) :
    currentMode s = some cur :=
  currentMode_of_num hM fun hhyp => absurd hhyp (savesReturnState_ne_hyp hsaves)

/-- Settles O23: User and System are current modes at every level, and only the check for EL2 comes
before case 1. -/
theorem userAndSystemModeAreCaseOne : Obligations.UserAndSystemModeAreCaseOne := by
  intro e W mode s hM hel hcond
  obtain ⟨cur, hcur, hM⟩ : ∃ cur : Mode, (cur = .usr ∨ cur = .sys) ∧ s.M = cur.num :=
    hM.elim (fun h => ⟨.usr, .inl rfl, h⟩) fun h => ⟨.sys, .inr rfl, h⟩
  have hcurrent : currentMode s = some cur := by
    refine currentMode_of_num hM ?_
    rintro rfl
    simp at hcur
  refine resolutions_of_eq_resolveCu ?_
  rw [exec_eq_srsAfterChecks hcurrent hcond, srsCheck_of_userOrSystem hel hcur]
  rfl

/-- Settles O24: Hyp is the first specified mode that is asked for, before `BadMode`. -/
theorem hypAsSpecifiedModeIsCaseTwo : Obligations.HypAsSpecifiedModeIsCaseTwo := by
  intro e W cur s hM hsaves hel hcond
  refine resolutions_of_eq_resolveCu ?_
  rw [exec_eq_srsAfterChecks (currentMode_of_savesReturnState hM hsaves) hcond]
  exact congrArg (srsAfterChecks _ _ cur · s)
    (srsCheck_hyp hel (not_userOrSystem_of_savesReturnState hsaves))

/-- Settles O25: Monitor is asked for before `BadMode`, and `checkMonitor` has the three answers. -/
theorem monitorAsSpecifiedMode : Obligations.MonitorAsSpecifiedMode := by
  intro e W cur s hM hsaves hel hcond
  have hexec : exec (e.instr W e.shouldBe 0b10110#5) s =
      srsAfterChecks (classOf e) (decodeLine (classOf e) W) cur (checkMonitor s) s := by
    rw [exec_eq_srsAfterChecks (currentMode_of_savesReturnState hM hsaves) hcond]
    exact congrArg (srsAfterChecks _ _ cur · s)
      (srsCheck_mon hel (not_userOrSystem_of_savesReturnState hsaves))
  rw [hexec]
  refine ⟨fun h => ?_, fun hel3 hss haarch32 => ?_, fun hel3 hss haarch32 => ?_⟩
  · rw [checkMonitor_of_not_secure_el3 h]
    rfl
  · rw [checkMonitor_of_secure hel3 hss, haarch32]
    rfl
  · rw [checkMonitor_of_secure hel3 hss, haarch32]
    rfl

/-! ### Case 4 -/

theorem exec_eq_resolveBadMode (hM : s.M = cur.num) (hsaves : savesReturnState cur)
    (hel : s.EL ≠ el2) (hcond : condPassed (classOf e) s = true) (hfour : isCaseFour s.cfg mode) :
    exec (e.instr W e.shouldBe mode) s =
      resolveBadMode (classOf e) (decodeLine (classOf e) W) cur s := by
  rw [exec_eq_srsAfterChecks (currentMode_of_savesReturnState hM hsaves) hcond,
    srsCheck_of_caseFour hel (not_userOrSystem_of_savesReturnState hsaves) hfour]
  rfl

/-- Settles O27: the specified mode is case 4's, and each clause is an arm of `resolveBadMode`. -/
theorem badModeIsCaseFour : Obligations.BadModeIsCaseFour := by
  intro e W mode cur s hM hsaves hel hcond hhyp hmon hbad
  rw [exec_eq_resolveBadMode hM hsaves hel hcond ⟨hbad, hhyp, hmon⟩, resolveBadMode]
  refine ⟨fun h => ?_, fun h => ?_, fun h => ?_⟩
  · rw [h]; rfl
  · rw [h]; rfl
  · rw [h]

theorem resolveBadMode_of_ownStack (h : s.cfg.cu4 = .ownStack) (c : EncClass) (v : DecodeVars)
    (cur : Mode) : resolveBadMode c v cur s = srsBody c v cur cur s := by
  rw [resolveBadMode, h]

theorem resolveBadMode_of_unknownStore (h : s.cfg.cu4 = .unknownStore) (c : EncClass)
    (v : DecodeVars) (cur : Mode) : resolveBadMode c v cur s = srsUnknownStore c v cur s := by
  rw [resolveBadMode, h]

/-- Settles O29: OWN_STACK is the operation proper with the current mode as target. -/
theorem ownStackStoresToTheCurrentStack : Obligations.OwnStackStoresToTheCurrentStack := by
  intro e W mode cur s spsrv hM hsaves hel hcond hhyp hmon hbad hcu4 hspsr hstorable
  rw [← storeAddress_decodeLine e W] at hstorable
  rw [exec_eq_resolveBadMode hM hsaves hel hcond ⟨hbad, hhyp, hmon⟩,
    resolveBadMode_of_ownStack hcu4, srsBody_of_storable hspsr hstorable, bodyState_decodeLine]

/-- Where the two stores stop, the operation proper stops in the same way. -/
theorem srsBody_of_stores_stop {target : Mode} {o : Result} (hsaves : savesReturnState cur)
    (hstop : ¬completes o)
    (hstores : ∀ lrv spsrv,
      storePairAligned s (Table.lrAddress e (readSP s target)) lrv spsrv = o) :
    srsBody (classOf e) (decodeLine (classOf e) W) cur target s = o := by
  obtain ⟨spsrv, hspsr⟩ := readSPSR_isSome hsaves s
  simp only [srsBody, hspsr, storeAddress_decodeLine, hstores, andThen_of_not_completes hstop]

/-- Settles O30: the stores are those of the operation proper with the current mode's SP as base, and
stop at their first check that fails. -/
theorem ownStackStopsWhereItCannotStore : Obligations.OwnStackStopsWhereItCannotStore := by
  intro e W mode cur s hM hsaves hel hcond hhyp hmon hbad hcu4
  rw [exec_eq_resolveBadMode hM hsaves hel hcond ⟨hbad, hhyp, hmon⟩,
    resolveBadMode_of_ownStack hcu4, spsrAddress_eq_lrAddress_add, ← aligned4_lrAddress e]
  refine ⟨fun hmisaligned => ?_, fun haligned hoverlap => ?_, fun haligned hoverlap hdenied =>
    ⟨abortState s (Table.lrAddress e (readSP s cur)), ?_, rfl, readByte_abortState_outside s _⟩⟩
  · exact srsBody_of_stores_stop hsaves (not_completes_fault _)
      (storePairAligned_of_misaligned hmisaligned)
  · refine srsBody_of_stores_stop hsaves (not_completes_refused _) fun lrv spsrv => ?_
    rw [storePairAligned_of_aligned haligned, storePair_of_overlap hoverlap]
  · refine srsBody_of_stores_stop hsaves (not_completes_fault _) fun lrv spsrv => ?_
    rw [storePairAligned_of_aligned haligned, storePair_of_unadmitted hoverlap hdenied]

/-- UNKNOWN_STORE without writeback writes no register. -/
theorem unknownStoreState_of_no_writeback {c : EncClass} {v : DecodeVars} {spsrv : Word}
    (h : v.wback = false) :
    (unknownStoreState c v cur spsrv s).r = s.r ∧ (unknownStoreState c v cur spsrv s).sp = s.sp ∧
      (unknownStoreState c v cur spsrv s).lr = s.lr := by
  rw [unknownStoreState, h]
  exact ⟨rfl, rfl, rfl⟩

theorem readLR_complete (c : EncClass) (s : State) (k : Mode) :
    readLR (complete c s) k = readLR s k := by
  cases k <;> rfl

theorem readLR_useDraws (s : State) (n : Nat) (k : Mode) :
    readLR (useDraws s n) k = readLR s k := by
  cases k <;> rfl

/-- UNKNOWN_STORE leaves an LR that cannot be accessed at the current level alone. -/
theorem readLR_unknownStoreState {c : EncClass} {v : DecodeVars} {spsrv : Word} {k : Mode}
    (hhyp : k ≠ .hyp) (hk : accessible s k = false) :
    readLR (unknownStoreState c v cur spsrv s) k = readLR s k := by
  unfold unknownStoreState
  split
  · rw [readLR_complete, readLR_scrambleRegs _ _ hhyp (by simpa using hk), readLR_setMem,
      readLR_useDraws]
  · rw [readLR_complete, readLR_setMem, readLR_useDraws]

/-- Settles O31: what UNKNOWN_STORE reaches is the 8 bytes at the free address and, with writeback,
the registers that are accessible. -/
theorem unknownStoreKeepsTheInaccessible : Obligations.UnknownStoreKeepsTheInaccessible := by
  intro e W mode cur s spsrv hM hsaves hel hcond hhyp hmon hbad hcu4 hspsr hoverlap hlower hupper
  rw [exec_eq_resolveBadMode hM hsaves hel hcond ⟨hbad, hhyp, hmon⟩,
    resolveBadMode_of_unknownStore hcu4]
  have hkeeps : KeepsStatus s
      (unknownStoreState (classOf e) (decodeLine (classOf e) W) cur spsrv s) :=
    unknownStoreState_keepsStatus
  obtain ⟨hlr, hspsrWord⟩ :=
    holdsWord_of_mem_eq_pairMem (unknownStoreState_mem _ _ _ _ _) hkeeps.cfg
  exact ⟨_, (srsUnknownStore_next_iff ..).mpr ⟨spsrv, hspsr, ⟨hoverlap, hlower, hupper⟩, rfl⟩,
    hlr, hspsrWord, fun a => readByte_unknownStoreState_outside, unknownStoreState_pc .., hkeeps.spsr,
    hkeeps.M, hkeeps.EL, hkeeps.ss, hkeeps.iset, hkeeps.cfg, hkeeps.program,
    fun hW => unknownStoreState_of_no_writeback ((decodeLine_wback _ W).trans hW),
    fun k => readSP_unknownStoreState, fun k => readLR_unknownStoreState⟩

/-- Where the two stores at the free address stop, UNKNOWN_STORE stops in the same way. -/
theorem srsUnknownStore_of_stores_stop {c : EncClass} {v : DecodeVars} {o : Result}
    (hsaves : savesReturnState cur) (hstop : ¬completes o)
    (hstores : ∀ lrv spsrv,
      storePair (useDraws s 1) (Config.freeWord s.draws) lrv spsrv = o) :
    srsUnknownStore c v cur s = o := by
  obtain ⟨spsrv, hspsr⟩ := readSPSR_isSome hsaves s
  simp only [srsUnknownStore, hspsr, hstores, andThen_of_not_completes hstop]

/-- Settles O32: the stores at the free address are made unaligned or not, and stop at overlap with
the program before admission. -/
theorem unknownStoreStopsWhereItCannotStore : Obligations.UnknownStoreStopsWhereItCannotStore := by
  intro e W mode cur s hM hsaves hel hcond hhyp hmon hbad hcu4
  rw [exec_eq_resolveBadMode hM hsaves hel hcond ⟨hbad, hhyp, hmon⟩,
    resolveBadMode_of_unknownStore hcu4]
  refine ⟨fun hoverlap => ?_, fun hoverlap hdenied =>
    ⟨abortState (useDraws s 1) (Config.freeWord s.draws), ?_, rfl,
      readByte_abortState_outside (useDraws s 1) _⟩⟩
  · exact srsUnknownStore_of_stores_stop hsaves (not_completes_refused _)
      (storePair_of_overlap hoverlap)
  · exact srsUnknownStore_of_stores_stop hsaves (not_completes_fault _)
      (storePair_of_unadmitted hoverlap hdenied)

end Sys2Proof.Machine
end

section
/-! What a completing SRS does not read (40_srs.md R108, R124; 10_state.md R23): the SP of a mode
other than the specified one, and the condition inputs in A1. -/

namespace Sys2Proof.Machine

variable {e : Encoding} {W : Bool} {mode : BitVec 5} {c : EncClass} {v : DecodeVars}
  {cur target k : Mode} {s t : State}

/-! ### The stack pointers of other modes -/

theorem decidesAlike_writeSP (s : State) (k : Mode) (w : Word) :
    DecidesAlike e mode s (writeSP s k w) := by
  constructor
  case cond => cases e <;> rfl
  all_goals (intros; rfl)

theorem sameSpBank_comm (m k : Mode) : sameSpBank m k = sameSpBank k m := by
  cases m <;> cases k <;> rfl

theorem setSpBank_comm (h : sameSpBank k target = false) (b : SpBanks) (w x : Word) :
    setSpBank (setSpBank b k w) target x = setSpBank (setSpBank b target x) k w := by
  cases k <;> cases target <;> simp_all [setSpBank, sameSpBank]

theorem readSP_writeSP_of_not_same (h : sameSpBank k target = false) (s : State) (w : Word) :
    readSP (writeSP s k w) target = readSP s target :=
  readSP_writeSP_other s k target w (sameSpBank_comm k target ▸ h)

theorem readLR_writeSP (s : State) (k : Mode) (w : Word) (m : Mode) :
    readLR (writeSP s k w) m = readLR s m := by
  cases m <;> rfl

theorem readSPSR_writeSP (s : State) (k : Mode) (w : Word) (m : Mode) :
    readSPSR (writeSP s k w) m = readSPSR s m := by
  cases m <;> rfl

theorem complete_writeSP (c : EncClass) (s : State) (k : Mode) (w : Word) :
    complete c (writeSP s k w) = writeSP (complete c s) k w := by
  cases c <;> rfl

theorem bodyState_writeSP (h : sameSpBank k target = false) (c : EncClass) (v : DecodeVars)
    (cur : Mode) (spsrv : Word) (s : State) (w : Word) :
    bodyState c v cur target spsrv (writeSP s k w) =
      writeSP (bodyState c v cur target spsrv s) k w := by
  have hinputs : condInputsAfter c (writeSP s k w) = condInputsAfter c s := by cases c <;> rfl
  simp only [bodyState_eq, readSP_writeSP_of_not_same h, readLR_writeSP, hinputs, writeSP_sp,
    setSpBank_comm h]
  cases v.wback <;> rfl

theorem srsBody_next_writeSP (hk : sameSpBank k target = false) (w : Word)
    (h : srsBody c v cur target s = .next t) :
    srsBody c v cur target (writeSP s k w) = .next (writeSP t k w) := by
  obtain ⟨spsrv, hspsr, hstorable, rfl⟩ := (srsBody_next_iff ..).mp h
  rw [← bodyState_writeSP hk]
  refine srsBody_of_storable ((readSPSR_writeSP ..).trans hspsr) ?_
  rw [readSP_writeSP_of_not_same hk]
  exact hstorable

/-- Outside OWN_STACK and UNKNOWN_STORE case 4 completes as a NOP only. -/
theorem resolveBadMode_next_iff (hown : s.cfg.cu4 ≠ .ownStack)
    (hunknown : s.cfg.cu4 ≠ .unknownStore) :
    resolveBadMode c v cur s = .next t ↔ s.cfg.cu4 = .nop ∧ t = complete c s := by
  unfold resolveBadMode
  cases hcu4 : s.cfg.cu4 with
  | keep => simp [raiseUnpredictable]
  | undef => simp [raiseUndefined]
  | nop => simp [@eq_comm State t]
  | ownStack => exact absurd hcu4 hown
  | unknownStore => exact absurd hcu4 hunknown

/-- Settles O16: the checks read no SP, and the operation proper reads and writes the bank that the
mode field names. -/
theorem onlyTheSpecifiedSpIsRead : Obligations.OnlyTheSpecifiedSpIsRead := by
  intro i s t target k w hmode hk hcu h
  have hnop : ∀ c, t = complete c s → writeSP t k w = complete c (writeSP s k w) := by
    rintro c rfl
    rw [complete_writeSP]
  rw [exec_eq_srs] at h ⊢
  refine srs_next_transfer (decidesAlike_writeSP s k w) (hnop _) (fun cur target' hcheck => ?_)
    (fun cur hcheck => ?_) h
  · obtain ⟨-, -, hmode', -⟩ := srsCheck_proceed_inv hcheck
    obtain rfl : target = target' := Mode.num_injective (hmode.symm.trans hmode')
    exact srsBody_next_writeSP hk w
  · obtain ⟨hbad, hhyp, hmon⟩ := srsCheck_badMode_inv hcheck
    obtain ⟨hown, hunknown⟩ := hcu hbad hhyp hmon
    intro hcase
    obtain ⟨hchoice, ht⟩ := (resolveBadMode_next_iff hown hunknown).mp hcase
    exact (resolveBadMode_next_iff (s := writeSP s k w) hown hunknown).mpr ⟨hchoice, hnop _ ht⟩

/-! ### The condition inputs -/

/-- The condition inputs replaced. -/
def setCondInputs (s : State) (inputs : List Bool) : State :=
  { s with condInputs := inputs }

theorem classOf_of_a32 (h : e.iset = .a32) : ∃ P U, classOf e = .A1 P U := by
  cases e with
  | srsT1 => cases h
  | srsT2 => cases h
  | _ => exact ⟨_, _, rfl⟩

theorem decidesAlike_setCondInputs (he : e.iset = .a32) (s : State) (inputs : List Bool) :
    DecidesAlike e mode s (setCondInputs s inputs) := by
  obtain ⟨P, U, hclass⟩ := classOf_of_a32 he
  constructor
  case cond => rw [hclass]; rfl
  all_goals (intros; rfl)

theorem readSP_setCondInputs (s : State) (inputs : List Bool) (m : Mode) :
    readSP (setCondInputs s inputs) m = readSP s m := by
  cases m <;> rfl

theorem readLR_setCondInputs (s : State) (inputs : List Bool) (m : Mode) :
    readLR (setCondInputs s inputs) m = readLR s m := by
  cases m <;> rfl

theorem readSPSR_setCondInputs (s : State) (inputs : List Bool) (m : Mode) :
    readSPSR (setCondInputs s inputs) m = readSPSR s m := by
  cases m <;> rfl

theorem srsBody_next_setCondInputs {P U : Bool} (inputs : List Bool)
    (h : srsBody (.A1 P U) v cur target s = .next t) :
    srsBody (.A1 P U) v cur target (setCondInputs s inputs) = .next (setCondInputs t inputs) := by
  obtain ⟨spsrv, hspsr, hstorable, rfl⟩ := (srsBody_next_iff ..).mp h
  refine (srsBody_of_storable ((readSPSR_setCondInputs ..).trans hspsr)
    (by rw [readSP_setCondInputs]; exact hstorable)).trans ?_
  rw [bodyState_eq, bodyState_eq, readSP_setCondInputs, readLR_setCondInputs]
  rfl

theorem srsUnknownStore_next_setCondInputs {P U : Bool} (inputs : List Bool)
    (h : srsUnknownStore (.A1 P U) v cur s = .next t) :
    srsUnknownStore (.A1 P U) v cur (setCondInputs s inputs) = .next (setCondInputs t inputs) := by
  obtain ⟨spsrv, hspsr, hstores, rfl⟩ := (srsUnknownStore_next_iff ..).mp h
  refine (srsUnknownStore_next_iff ..).mpr
    ⟨spsrv, (readSPSR_setCondInputs ..).trans hspsr, hstores, ?_⟩
  rw [unknownStoreState, unknownStoreState, readLR_setCondInputs]
  cases v.wback <;> rfl

/-- Settles O19: no A1 step reads the inputs or writes them, so with the same inputs again they are
kept. -/
theorem a1IgnoresTheConditionInputs : Obligations.A1IgnoresTheConditionInputs := by
  intro i s t inputs hset h
  obtain ⟨P, U, hclass⟩ := classOf_of_a32 hset
  have halike : ∀ inputs, exec i (setCondInputs s inputs) = .next (setCondInputs t inputs) := by
    intro inputs
    rw [exec_eq_srs] at h ⊢
    have hnop : t = complete (.A1 P U) s →
        setCondInputs t inputs = complete (.A1 P U) (setCondInputs s inputs) := by
      rintro rfl
      rfl
    refine srs_next_transfer (decidesAlike_setCondInputs hset s inputs) ?_ ?_ ?_ h
    · rw [hclass]
      exact hnop
    · rw [hclass]
      exact fun _ _ _ => srsBody_next_setCondInputs inputs
    · rw [hclass]
      exact fun _ _ => resolveBadMode_next_transfer rfl hnop (srsBody_next_setCondInputs inputs)
        (srsUnknownStore_next_setCondInputs inputs)
  have hsame : t = setCondInputs t s.condInputs :=
    Host.Outcome.next.inj (h.symm.trans (halike s.condInputs))
  exact ⟨(congrArg State.condInputs hsame :), halike inputs⟩

end Sys2Proof.Machine
end

section
/-! Two ways to write one effect (40_srs.md R114, R120, R121, R123): User and System as the specified
mode, and a T32 form and its A1 form where no condition input waits. -/

namespace Sys2Proof.Machine

variable {e e' : Encoding} {W : Bool} {sb : BitVec 15} {mode mode' : BitVec 5}
  {cur : Mode} {s : State}

/-! ### User and System -/

theorem srsBody_usr_eq_sys (c : EncClass) (v : DecodeVars) (cur : Mode) (s : State) :
    srsBody c v cur .usr s = srsBody c v cur .sys s := rfl

/-- Where both are implemented the checks treat them alike, or let both through. -/
theorem srsCheck_usr_sys (husr : implemented s.cfg Mode.usr.num = true)
    (hsys : implemented s.cfg Mode.sys.num = true) (cur : Mode) :
    srsCheck s cur Mode.usr.num = srsCheck s cur Mode.sys.num ∨
      (srsCheck s cur Mode.usr.num = .proceed .usr ∧ srsCheck s cur Mode.sys.num = .proceed .sys) := by
  unfold srsCheck
  split
  · exact .inl rfl
  · split
    · exact .inl rfl
    · right
      simp [badMode, husr, hsys]

theorem srsAfterChecks_usr_eq_sys (husr : implemented s.cfg Mode.usr.num = true)
    (hsys : implemented s.cfg Mode.sys.num = true) (c : EncClass) (v : DecodeVars) (cur : Mode) :
    srsAfterChecks c v cur (srsCheck s cur Mode.usr.num) s =
      srsAfterChecks c v cur (srsCheck s cur Mode.sys.num) s := by
  obtain h | ⟨hu, hs⟩ := srsCheck_usr_sys husr hsys cur
  · rw [h]
  · rw [hu, hs]
    exact srsBody_usr_eq_sys c v cur s

/-- The specified mode has an effect through the checks only. -/
theorem srs_congr_mode
    (h : ∀ cur, srsAfterChecks (classOf e) (decodeLine (classOf e) W) cur (srsCheck s cur mode) s =
      srsAfterChecks (classOf e) (decodeLine (classOf e) W) cur (srsCheck s cur mode') s) :
    srs e W sb mode s = srs e W sb mode' s := by
  unfold srs
  cases currentMode s with
  | none => rfl
  | some cur => simp only [h cur]

/-- Settles O20: both pass the checks together, and the two modes share a bank. -/
theorem userAndSystemNameOneStack : Obligations.UserAndSystemNameOneStack := by
  intro e W sb s husr hsys
  rw [exec_instr, exec_instr]
  exact srs_congr_mode fun cur => srsAfterChecks_usr_eq_sys husr hsys _ _ cur

/-! ### The T32 forms -/

theorem andThen_congr {o : Result} {f g : State → Result} (h : ∀ s', o = .next s' → f s' = g s') :
    andThen o f = andThen o g := by
  cases o with
  | next s' => exact h s' rfl
  | fault r => rfl
  | refused r => rfl

theorem condPassed_of_no_inputs (h : s.condInputs = []) (c : EncClass) : condPassed c s = true := by
  cases c <;> simp [condPassed, h]

theorem condInputsAfter_of_no_inputs (h : s.condInputs = []) (c : EncClass) :
    condInputsAfter c s = [] := by
  cases c <;> simp [condInputsAfter, h]

theorem complete_congr_class (h : s.condInputs = []) (c c' : EncClass) :
    complete c s = complete c' s := by
  rw [complete, complete, condInputsAfter_of_no_inputs h, condInputsAfter_of_no_inputs h]

theorem srsBody_congr_class (h : s.condInputs = []) (c c' : EncClass) (v : DecodeVars)
    (cur target : Mode) : srsBody c v cur target s = srsBody c' v cur target s := by
  unfold srsBody
  cases readSPSR s cur with
  | none => rfl
  | some spsrv =>
    refine andThen_congr fun s' hs' => ?_
    obtain ⟨-, rfl⟩ := (storePairAligned_next_iff ..).mp hs'
    exact congrArg _ (complete_congr_class (by simpa using h) c c')

theorem srsUnknownStore_congr_class (h : s.condInputs = []) (c c' : EncClass) (v : DecodeVars)
    (cur : Mode) : srsUnknownStore c v cur s = srsUnknownStore c' v cur s := by
  unfold srsUnknownStore
  cases readSPSR s cur with
  | none => rfl
  | some spsrv =>
    refine andThen_congr fun s' hs' => ?_
    obtain ⟨-, rfl⟩ := (storePair_next_iff ..).mp hs'
    refine congrArg _ (complete_congr_class ?_ c c')
    split <;> simpa using h

theorem resolveCu_congr_class (h : s.condInputs = []) (c c' : EncClass) (choice : CuChoice)
    (case : CuCase) : resolveCu c choice case s = resolveCu c' choice case s := by
  simp only [resolveCu, complete_congr_class h c c']

theorem srsAfterChecks_congr_class (h : s.condInputs = []) (c c' : EncClass) (v : DecodeVars)
    (cur : Mode) (r : CheckResult) : srsAfterChecks c v cur r s = srsAfterChecks c' v cur r s := by
  cases r with
  | undefined => rfl
  | monitorModeTrap => rfl
  | proceed target => exact srsBody_congr_class h ..
  | unpredictable case =>
    cases case with
    | shouldBe => rfl
    | userOrSystem => exact resolveCu_congr_class h ..
    | hypMode => exact resolveCu_congr_class h ..
    | monitorMode => exact resolveCu_congr_class h ..
    | badMode =>
      simp only [srsAfterChecks, resolveUnpredictable, resolveBadMode,
        complete_congr_class h c c', srsBody_congr_class h c c', srsUnknownStore_congr_class h c c']

/-- Where no condition input waits, the canonical instructions of two rows with one Decode result have
one effect. -/
theorem exec_congr_encoding (h : s.condInputs = [])
    (hdecode : decodeLine (classOf e) W = decodeLine (classOf e') W) :
    exec (e.instr W e.shouldBe mode) s = exec (e'.instr W e'.shouldBe mode) s := by
  cases hcur : currentMode s with
  | none => rw [exec_of_currentMode_eq_none hcur, exec_of_currentMode_eq_none hcur]
  | some cur =>
    rw [exec_eq_srsAfterChecks hcur (condPassed_of_no_inputs h _),
      exec_eq_srsAfterChecks hcur (condPassed_of_no_inputs h _), hdecode]
    exact srsAfterChecks_congr_class h ..

/-- Settles O21: T1 has the Decode result of A1 SRSDB, and T2 that of A1 SRSIA. -/
theorem thumbFormsActAsTheirA1Forms : Obligations.ThumbFormsActAsTheirA1Forms :=
  fun _ _ _ h =>
    ⟨exec_congr_encoding (e := .srsT1) (e' := .srsdbA1) h rfl,
      exec_congr_encoding (e := .srsT2) (e' := .srsiaA1) h rfl⟩

end Sys2Proof.Machine
end

section
/-! No step reads data memory (40_srs.md R124, 20_memory.md R54): each part of an SRS completes alike
over other memory contents, and stores the same bytes there. -/

namespace Sys2Proof.Machine

variable {c : EncClass} {v : DecodeVars} {cur target : Mode} {s : State}

/-- Each byte of the two memories after is one that both runs store alike, or one that neither run
stores. -/
def StoresAlike (before after m m' : Memory) : Prop :=
  ∀ a : Word, memGet m' a.toNat = memGet after a.toNat ∨
    (memGet m' a.toNat = memGet m a.toNat ∧ memGet after a.toNat = memGet before a.toNat)

/-- With other memory contents the operation completes with the same state but for memory, to which
it stores alike. -/
def ReadsNoMemory (f : State → Result) : Prop :=
  ∀ (s t : State) (m : Memory), f s = .next t →
    ∃ m', f (setMem s m) = .next (setMem t m') ∧ StoresAlike s.mem t.mem m m'

theorem storesAlike_refl (before m : Memory) : StoresAlike before before m m :=
  fun _ => .inr ⟨rfl, rfl⟩

/-- A byte of the two words is the same over any memory; the others stay as they were. -/
theorem storesAlike_pairMem (s : State) (m : Memory) (address lrv spsrv : Word) :
    StoresAlike s.mem (pairMem s address lrv spsrv) m (pairMem (setMem s m) address lrv spsrv) := by
  intro a
  by_cases ha : outside8 address a
  · exact .inr ⟨memGet_pairMem_outside (setMem s m) _ _ _ _ ha, memGet_pairMem_outside s _ _ _ _ ha⟩
  · left
    obtain ⟨k, hk, rfl⟩ : ∃ k < 8, a = address + BitVec.ofNat 32 k := by
      simpa [outside8] using ha
    by_cases hlower : k < 4
    · rw [memGet_pairMem_lower (setMem s m) _ _ _ k (by simpa using hlower),
        memGet_pairMem_lower s _ _ _ k (by simpa using hlower)]
      rfl
    · obtain ⟨j, rfl⟩ : ∃ j, k = 4 + j := ⟨k - 4, by omega⟩
      rw [BitVec.ofNat_add, ← BitVec.add_assoc]
      have hj : j < 4 := by omega
      exact (memGet_pairMem_upper (setMem s m) _ _ _ j (by simpa using hj)).trans
        (memGet_pairMem_upper s address lrv spsrv j (by simpa using hj)).symm

theorem complete_setMem (c : EncClass) (s : State) (m : Memory) :
    complete c (setMem s m) = setMem (complete c s) m := by
  cases c <;> rfl

theorem readsNoMemory_complete (c : EncClass) : ReadsNoMemory fun s => .next (complete c s) := by
  rintro s _ m ⟨⟩
  exact ⟨m, congrArg _ (complete_setMem c s m), storesAlike_refl s.mem m⟩

theorem bodyState_setMem (c : EncClass) (v : DecodeVars) (cur target : Mode) (spsrv : Word)
    (s : State) (m : Memory) :
    bodyState c v cur target spsrv (setMem s m) =
      setMem (bodyState c v cur target spsrv s)
        (pairMem (setMem s m) (storeAddress v (readSP s target)) (readLR s cur) spsrv) := by
  rw [bodyState_eq, bodyState_eq, readSP_setMem, readLR_setMem]
  cases c <;> rfl

theorem readsNoMemory_srsBody : ReadsNoMemory (srsBody c v cur target) := by
  intro s t m h
  obtain ⟨spsrv, hspsr, hstorable, rfl⟩ := (srsBody_next_iff ..).mp h
  refine ⟨_, (srsBody_of_storable ((readSPSR_setMem ..).trans hspsr)
    (by rw [readSP_setMem]; exact hstorable)).trans (congrArg _ (bodyState_setMem ..)), ?_⟩
  rw [bodyState_eq]
  exact storesAlike_pairMem s m _ _ spsrv

theorem unknownStoreState_setMem (c : EncClass) (v : DecodeVars) (cur : Mode) (spsrv : Word)
    (s : State) (m : Memory) :
    unknownStoreState c v cur spsrv (setMem s m) =
      setMem (unknownStoreState c v cur spsrv s)
        (pairMem (setMem (useDraws s 1) m) (Config.freeWord s.draws) (readLR s cur) spsrv) := by
  rw [unknownStoreState, unknownStoreState, readLR_setMem]
  cases c <;> cases v.wback <;> rfl

theorem readsNoMemory_srsUnknownStore : ReadsNoMemory (srsUnknownStore c v cur) := by
  intro s t m h
  obtain ⟨spsrv, hspsr, hstores, rfl⟩ := (srsUnknownStore_next_iff ..).mp h
  refine ⟨_, (srsUnknownStore_next_iff ..).mpr ⟨spsrv, (readSPSR_setMem ..).trans hspsr, hstores,
    (unknownStoreState_setMem ..).symm⟩, ?_⟩
  rw [unknownStoreState_mem]
  exact storesAlike_pairMem (useDraws s 1) m _ _ spsrv

theorem readsNoMemory_resolveCu {case : CuCase} (choice : State → CuChoice)
    (hchoice : ∀ s m, choice (setMem s m) = choice s) :
    ReadsNoMemory fun s => resolveCu c (choice s) case s := by
  intro s t m h
  dsimp only at h ⊢
  rw [hchoice]
  obtain ⟨hnop, rfl⟩ := (resolveCu_next_iff ..).mp h
  rw [hnop]
  exact readsNoMemory_complete c s _ m rfl

theorem readsNoMemory_resolveBadMode : ReadsNoMemory (resolveBadMode c v cur) := by
  intro s t m h
  unfold resolveBadMode at h ⊢
  rw [setMem_cfg]
  cases hcu4 : s.cfg.cu4 with
  | keep => simp [hcu4, raiseUnpredictable] at h
  | undef => simp [hcu4, raiseUndefined] at h
  | nop => exact readsNoMemory_complete c s t m (by simpa [hcu4] using h)
  | ownStack => exact readsNoMemory_srsBody s t m (by simpa [hcu4] using h)
  | unknownStore => exact readsNoMemory_srsUnknownStore s t m (by simpa [hcu4] using h)

theorem readsNoMemory_srsAfterChecks (r : CheckResult) :
    ReadsNoMemory (srsAfterChecks c v cur r) := by
  cases r with
  | undefined => rintro s t m ⟨⟩
  | monitorModeTrap => rintro s t m ⟨⟩
  | proceed target => exact readsNoMemory_srsBody
  | unpredictable case =>
    cases case with
    | shouldBe => rintro s t m ⟨⟩
    | userOrSystem => exact readsNoMemory_resolveCu (·.cfg.cu1) fun _ _ => rfl
    | hypMode => exact readsNoMemory_resolveCu (·.cfg.cu2) fun _ _ => rfl
    | monitorMode => exact readsNoMemory_resolveCu (·.cfg.cu3) fun _ _ => rfl
    | badMode => exact readsNoMemory_resolveBadMode

theorem readsNoMemory_srs (e : Encoding) (W : Bool) (sb : BitVec 15) (mode : BitVec 5) :
    ReadsNoMemory (srs e W sb mode) := by
  intro s t m h
  have hcurrent : currentMode (setMem s m) = currentMode s := rfl
  have hcond : condPassed (classOf e) (setMem s m) = condPassed (classOf e) s := by cases e <;> rfl
  have hcheck (cur : Mode) : srsCheck (setMem s m) cur mode = srsCheck s cur mode := rfl
  unfold srs at h ⊢
  rw [hcurrent, hcond]
  cases hcur : currentMode s with
  | none => simp [hcur, refuseBadCurrentMode] at h
  | some cur =>
    simp only [hcur, hcheck] at h ⊢
    split at h
    · cases h
    · next hsb =>
      rw [if_neg hsb]
      split at h
      · next hfailed =>
        rw [if_pos hfailed]
        exact readsNoMemory_complete _ s t m h
      · next hpassed =>
        rw [if_neg hpassed]
        exact readsNoMemory_srsAfterChecks _ s t m h

theorem readsNoMemory_step : ReadsNoMemory step := by
  intro s t m h
  have hfetch : fetchInstr (setMem s m) = fetchInstr s := rfl
  unfold step at h ⊢
  rw [hfetch]
  cases hi : fetchInstr s with
  | error r => simp [hi] at h
  | ok i =>
    simp only [hi, exec_eq_srs] at h ⊢
    exact readsNoMemory_srs _ _ _ _ s t m h

/-- Settles O43: the fetch reads the program text, and no part of an SRS reads memory. -/
theorem stepsReadNoMemory : Obligations.StepsReadNoMemory :=
  readsNoMemory_step

end Sys2Proof.Machine
end

section
/-! What a DataAbort leaves (60_exceptions.md R145, R148; 20_memory.md R55): each path to one
carries the state before, but for the 8 bytes that path would store to. -/

namespace Sys2Proof.Machine

variable {i : Instr} {cur target : Mode} {s after : State} {p x address : Word}

theorem storeFault_dataAbort (h : storeFault s address (.dataAbort p x after)) :
    p = s.pc ∧ after = abortState s address := by
  obtain h | ⟨y, h⟩ := h
  · cases h
  · cases h
    exact ⟨rfl, rfl⟩

/-- A mode that may be used is not case 4's (40_srs.md R104 to R106). -/
theorem not_isCaseFour_of_usableTarget (h : usableTarget s target) :
    ¬isCaseFour s.cfg target.num := by
  rintro ⟨hbad, -, hmon⟩
  obtain ⟨-, -, himplemented⟩ := h
  have hne : target ≠ .mon := by
    rintro rfl
    exact hmon rfl
  simp [badMode, himplemented hne] at hbad

/-- The three paths to a DataAbort, with the address whose 8 bytes each frees: the operation proper
on the specified mode, OWN_STACK, and UNKNOWN_STORE. -/
theorem exec_dataAbort_cases (h : exec i s = .fault (.dataAbort p x after)) :
    p = s.pc ∧
    ((∃ target, i.mode = target.num ∧ ¬isCaseFour s.cfg i.mode ∧
        after = abortState s
          (storeAddress (decodeLine (classOf i.encoding) i.W) (readSP s target))) ∨
     (∃ cur, s.M = cur.num ∧ isCaseFour s.cfg i.mode ∧ s.cfg.cu4 = .ownStack ∧
        after = abortState s
          (storeAddress (decodeLine (classOf i.encoding) i.W) (readSP s cur))) ∨
     (isCaseFour s.cfg i.mode ∧ s.cfg.cu4 = .unknownStore ∧
        after = abortState (useDraws s 1) (Config.freeWord s.draws))) := by
  rw [exec_eq_srs] at h
  obtain ⟨cur, hcur, ⟨-, hf⟩ | ⟨-, -, ⟨-, hf⟩ | ⟨-, hf⟩ | ⟨k, -, hf | hf⟩ |
    ⟨target, hcheck | ⟨hcheck, hown, rfl⟩, hstore⟩ | ⟨hcheck, hunknown, y, hf⟩⟩⟩ :=
    srs_fault_cases h
  · cases hf
  · cases hf
  · cases hf
  · cases hf
  · cases hf
  · obtain ⟨hp, hafter⟩ := storeFault_dataAbort hstore
    obtain ⟨-, -, hmode, husable⟩ := srsCheck_proceed_inv hcheck
    exact ⟨hp, .inl ⟨target, hmode, hmode ▸ not_isCaseFour_of_usableTarget husable, hafter⟩⟩
  · obtain ⟨hp, hafter⟩ := storeFault_dataAbort hstore
    have hfour := srsCheck_badMode_inv hcheck
    exact ⟨hp, .inr (.inl ⟨target, currentMode_num hcur, hfour, hown, hafter⟩)⟩
  · cases hf
    exact ⟨rfl, .inr (.inr ⟨srsCheck_badMode_inv hcheck, hunknown, rfl⟩)⟩

/-- Settles O38: the paths exclude each other, and on each the state carried is an `abortState`,
which frees 8 bytes and changes nothing else. -/
theorem abortsArePreciseInTheRegisters : Obligations.AbortsArePreciseInTheRegisters := by
  intro i s after p x h
  obtain ⟨hp, ⟨target, hmode, hnot, rfl⟩ | ⟨cur, hM, hfour, hown, rfl⟩ | ⟨hfour, hunknown, rfl⟩⟩ :=
    exec_dataAbort_cases h
  · refine ⟨hp, rfl, fun k hk _ => ?_, fun _ _ hfour => absurd hfour hnot,
      fun hfour => absurd hfour hnot⟩
    obtain rfl : target = k := Mode.num_injective (hmode.symm.trans hk)
    exact readByte_abortState_outside s _
  · refine ⟨hp, rfl, fun _ _ hnot => absurd hfour hnot, fun k hk _ _ => ?_,
      fun _ hunknown => by simp [hown] at hunknown⟩
    obtain rfl : cur = k := Mode.num_injective (hM.symm.trans hk)
    exact readByte_abortState_outside s _
  · exact ⟨hp, rfl, fun _ _ hnot => absurd hfour hnot,
      fun _ _ _ hown => by simp [hunknown] at hown,
      fun _ _ => readByte_abortState_outside (useDraws s 1) _⟩

end Sys2Proof.Machine
end

section
/-! SP_mon and LR_mon (60_exceptions.md R152, 40_srs.md R105): unless the PE is Secure with EL3
using AArch32, an SRS outside Monitor mode neither runs on Monitor's banks nor stores from them. -/

namespace Sys2Proof.Machine

variable {e : Encoding} {mode : BitVec 5} {c : EncClass}
  {dv : DecodeVars} {cur target k : Mode} {i : Instr} {s s' t t' : State} {spsrv : Word}

/-- A completing SRS has a current mode, and with that mode completes alike from a state that its
checks cannot tell apart, if its three endings do. -/
theorem exec_next_transfer_of_currentMode (hcur : currentMode s = some cur)
    (alike : DecidesAlike i.encoding i.mode s s')
    (hnop : t = complete (classOf i.encoding) s → t' = complete (classOf i.encoding) s')
    (hbody : ∀ target, srsCheck s cur i.mode = .proceed target →
      srsBody (classOf i.encoding) (decodeLine (classOf i.encoding) i.W) cur target s = .next t →
      srsBody (classOf i.encoding) (decodeLine (classOf i.encoding) i.W) cur target s' = .next t')
    (hbad : srsCheck s cur i.mode = .unpredictable .badMode →
      resolveBadMode (classOf i.encoding) (decodeLine (classOf i.encoding) i.W) cur s = .next t →
      resolveBadMode (classOf i.encoding) (decodeLine (classOf i.encoding) i.W) cur s' = .next t')
    (h : exec i s = .next t) : exec i s' = .next t' := by
  have hcur' : currentMode s' = some cur := alike.current.trans hcur
  rw [← i.instr_fields] at h ⊢
  by_cases hsb : i.sb = i.encoding.shouldBe
  · rw [hsb] at h ⊢
    cases hcond : condPassed (classOf i.encoding) s with
    | false =>
      rw [exec_of_condition_failed (by simp [hcur]) hcond] at h
      rw [exec_of_condition_failed (by simp [hcur']) (alike.cond.trans hcond),
        hnop (Host.Outcome.next.inj h).symm]
    | true =>
      rw [exec_eq_srsAfterChecks hcur hcond] at h
      rw [exec_eq_srsAfterChecks hcur' (alike.cond.trans hcond), alike.check]
      exact srsAfterChecks_next_transfer alike.cu1 alike.cu2 alike.cu3 hnop hbody hbad h
  · rw [violatedShouldBeBitsAreCaseZero _ _ _ _ s (by simp [hcur]) hsb] at h
    cases h

theorem currentMode_of_exec_next (h : exec i s = .next t) : ∃ cur, currentMode s = some cur := by
  cases hcur : currentMode s with
  | none => simp [exec_of_currentMode_eq_none hcur] at h
  | some cur => exact ⟨cur, rfl⟩

/-! ### Other values in Monitor's two banks -/

/-- SP_mon and LR_mon replaced. -/
def setMonBanks (s : State) (v w : Word) : State :=
  { s with sp := { s.sp with mon := v }, lr := { s.lr with mon := w } }

theorem decidesAlike_setMonBanks (s : State) (v w : Word) :
    DecidesAlike e mode s (setMonBanks s v w) := by
  constructor
  case cond => cases e <;> rfl
  all_goals (intros; rfl)

theorem readSP_setMonBanks (hk : k ≠ .mon) (s : State) (v w : Word) :
    readSP (setMonBanks s v w) k = readSP s k := by
  cases k with
  | mon => exact absurd rfl hk
  | _ => rfl

theorem readLR_setMonBanks (hk : k ≠ .mon) (s : State) (v w : Word) :
    readLR (setMonBanks s v w) k = readLR s k := by
  cases k with
  | mon => exact absurd rfl hk
  | _ => rfl

theorem readSPSR_setMonBanks (s : State) (v w : Word) (k : Mode) :
    readSPSR (setMonBanks s v w) k = readSPSR s k := by
  cases k <;> rfl

theorem complete_setMonBanks (c : EncClass) (s : State) (v w : Word) :
    complete c (setMonBanks s v w) = setMonBanks (complete c s) v w := by
  cases c <;> rfl

theorem writeback_setMonBanks (htarget : target ≠ .mon) (dv : DecodeVars) (base : Word) (s : State)
    (v w : Word) :
    writeback dv target base (setMonBanks s v w) = setMonBanks (writeback dv target base s) v w := by
  unfold writeback
  split
  · cases target with
    | mon => exact absurd rfl htarget
    | _ => rfl
  · rfl

theorem bodyState_setMonBanks (hcur : cur ≠ .mon) (htarget : target ≠ .mon) (s : State)
    (v w : Word) :
    bodyState c dv cur target spsrv (setMonBanks s v w) =
      setMonBanks (bodyState c dv cur target spsrv s) v w := by
  rw [bodyState, readSP_setMonBanks htarget, readLR_setMonBanks hcur, bodyState,
    ← complete_setMonBanks, ← writeback_setMonBanks htarget]
  rfl

theorem srsBody_next_setMonBanks (hcur : cur ≠ .mon) (htarget : target ≠ .mon) (v w : Word)
    (h : srsBody c dv cur target s = .next t) :
    srsBody c dv cur target (setMonBanks s v w) = .next (setMonBanks t v w) := by
  obtain ⟨spsrv, hspsr, hstorable, rfl⟩ := (srsBody_next_iff ..).mp h
  rw [← bodyState_setMonBanks hcur htarget]
  refine srsBody_of_storable ((readSPSR_setMonBanks ..).trans hspsr) ?_
  rw [readSP_setMonBanks htarget]
  exact hstorable

/-- Monitor's banks can be accessed from EL3 only (log entry 12). -/
theorem accessible_mon_eq_false (h : s.EL ≠ 0b11#2) : accessible s .mon = false := by
  refine decide_eq_false ?_
  show ¬3 ≤ s.EL.toNat
  bv_omega

theorem scrambleRegs_setMonBanks (h : accessible s .mon = false) (v w : Word) :
    scrambleRegs (setMonBanks s v w) = setMonBanks (scrambleRegs s) v w := by
  have h' : accessible (setMonBanks s v w) .mon = false := h
  simp only [scrambleRegs, drawIf, h, h']
  rfl

theorem unknownStoreState_setMonBanks (hcur : cur ≠ .mon) (h : accessible s .mon = false)
    (v w : Word) :
    unknownStoreState c dv cur spsrv (setMonBanks s v w) =
      setMonBanks (unknownStoreState c dv cur spsrv s) v w := by
  rw [unknownStoreState, readLR_setMonBanks hcur, unknownStoreState, ← complete_setMonBanks]
  split
  · rw [← scrambleRegs_setMonBanks (by simpa using h)]
    rfl
  · rfl

theorem srsUnknownStore_next_setMonBanks (hcur : cur ≠ .mon) (hmon : accessible s .mon = false)
    (v w : Word) (h : srsUnknownStore c dv cur s = .next t) :
    srsUnknownStore c dv cur (setMonBanks s v w) = .next (setMonBanks t v w) := by
  obtain ⟨spsrv, hspsr, hstores, rfl⟩ := (srsUnknownStore_next_iff ..).mp h
  exact (srsUnknownStore_next_iff ..).mpr ⟨spsrv, (readSPSR_setMonBanks ..).trans hspsr, hstores,
    (unknownStoreState_setMonBanks hcur hmon v w).symm⟩

/-- Case 4 as OWN_STACK runs on the current mode's bank, as UNKNOWN_STORE outside EL3 reaches no
bank of Monitor's, and otherwise completes as a NOP only. -/
theorem resolveBadMode_next_setMonBanks (hcur : cur ≠ .mon)
    (hreach : s.EL ≠ 0b11#2 ∨ s.cfg.cu4 ≠ .unknownStore) (v w : Word)
    (h : resolveBadMode c dv cur s = .next t) :
    resolveBadMode c dv cur (setMonBanks s v w) = .next (setMonBanks t v w) := by
  by_cases hown : s.cfg.cu4 = .ownStack
  · rw [resolveBadMode_of_ownStack hown] at h
    rw [resolveBadMode_of_ownStack (s := setMonBanks s v w) hown]
    exact srsBody_next_setMonBanks hcur hcur v w h
  by_cases hunknown : s.cfg.cu4 = .unknownStore
  · have hmon := accessible_mon_eq_false (hreach.resolve_right (not_not_intro hunknown))
    rw [resolveBadMode_of_unknownStore hunknown] at h
    rw [resolveBadMode_of_unknownStore (s := setMonBanks s v w) hunknown]
    exact srsUnknownStore_next_setMonBanks hcur hmon v w h
  · obtain ⟨hchoice, rfl⟩ := (resolveBadMode_next_iff hown hunknown).mp h
    exact (resolveBadMode_next_iff (s := setMonBanks s v w) hown hunknown).mpr
      ⟨hchoice, (complete_setMonBanks ..).symm⟩

/-- The checks let no Monitor target through, the current mode is not Monitor, and UNKNOWN_STORE
reaches Monitor's banks from EL3 only: so nothing reads or writes the two. -/
theorem exec_next_setMonBanks (h : exec i s = .next t) (hM : s.M ≠ Mode.mon.num)
    (hsecure : ¬(s.cfg.haveEL3 = true ∧ s.ss = .secure ∧ s.cfg.el3AArch32 = true))
    (hreach : s.EL ≠ 0b11#2 ∨ s.cfg.cu4 ≠ .unknownStore) (v w : Word) :
    exec i (setMonBanks s v w) = .next (setMonBanks t v w) := by
  obtain ⟨cur, hcur⟩ := currentMode_of_exec_next h
  have hcurNe : cur ≠ .mon := by
    rintro rfl
    exact hM (currentMode_num hcur)
  refine exec_next_transfer_of_currentMode hcur (decidesAlike_setMonBanks s v w) ?_
    (fun target hcheck => ?_) (fun _ hbad => ?_) h
  · rintro rfl
    exact (complete_setMonBanks ..).symm
  · obtain ⟨-, -, -, -, hmon, -⟩ := srsCheck_proceed_inv hcheck
    exact srsBody_next_setMonBanks hcurNe (fun htarget => hsecure (hmon htarget)) v w
  · exact resolveBadMode_next_setMonBanks hcurNe hreach v w hbad

/-- Settles O46: with the same values again the two banks are kept. -/
theorem monitorBanksAreIsolated : Obligations.MonitorBanksAreIsolated := by
  intro i s t v w h hM hsecure hreach
  have halike := exec_next_setMonBanks h hM hsecure hreach
  have hsame : t = setMonBanks t s.sp.mon s.lr.mon :=
    Host.Outcome.next.inj (h.symm.trans (halike s.sp.mon s.lr.mon))
  exact ⟨(congrArg (·.sp.mon) hsame :), (congrArg (·.lr.mon) hsame :), halike v w⟩

end Sys2Proof.Machine
end

section
/-! When a canonical SRS completes with every CONSTRAINED UNPREDICTABLE case kept as a fault
(70_reset_and_hazards.md R171, 40_srs.md R113): the checks must pass and the stores must be made. -/

namespace Sys2Proof.Machine

variable {c : EncClass} {v : DecodeVars} {cur : Mode} {r : CheckResult} {s t : State}

/-- With the four cases kept, only the operation proper completes after the checks. -/
theorem srsAfterChecks_next_inv_of_keep (hcu1 : s.cfg.cu1 = .keep) (hcu2 : s.cfg.cu2 = .keep)
    (hcu3 : s.cfg.cu3 = .keep) (hcu4 : s.cfg.cu4 = .keep)
    (h : srsAfterChecks c v cur r s = .next t) :
    ∃ target, r = .proceed target ∧ srsBody c v cur target s = .next t := by
  cases r with
  | undefined => cases h
  | monitorModeTrap => cases h
  | proceed target => exact ⟨target, rfl, h⟩
  | unpredictable case =>
    exfalso
    cases case with
    | shouldBe => cases h
    | userOrSystem => simp [srsAfterChecks, resolveUnpredictable, resolveCu_next_iff, hcu1] at h
    | hypMode => simp [srsAfterChecks, resolveUnpredictable, resolveCu_next_iff, hcu2] at h
    | monitorMode => simp [srsAfterChecks, resolveUnpredictable, resolveCu_next_iff, hcu3] at h
    | badMode =>
      have hnext : resolveBadMode c v cur s = .next t := h
      rw [resolveBadMode_next_iff (by simp [hcu4]) (by simp [hcu4])] at hnext
      simp [hcu4] at hnext

/-- A mode the checks let through at the current level saves a return state: Hyp is a current mode
at EL2 only. -/
theorem savesReturnState_of_not_userOrSystem (hcur : currentMode s = some cur) (hel : s.EL ≠ el2)
    (hmodes : ¬(cur = .usr ∨ cur = .sys)) : savesReturnState cur := by
  refine savesReturnState_of_current hmodes ?_
  rintro rfl
  exact hel (EL_eq_el2_of_currentMode_hyp hcur)

/-- Settles O41: a completion comes from the operation proper alone, whose checks and stores have
established items 1 to 6; and from a ready state the operation proper completes. -/
theorem srsCompletesExactlyWhenReady : Obligations.SrsCompletesExactlyWhenReady := by
  intro e W mode cur s hcur hcond hcu1 hcu2 hcu3 hcu4
  constructor
  · rintro ⟨t, hnext⟩
    rw [exec_eq_srsAfterChecks hcur hcond] at hnext
    obtain ⟨target, hcheck, hbody⟩ := srsAfterChecks_next_inv_of_keep hcu1 hcu2 hcu3 hcu4 hnext
    obtain ⟨hel, hmodes, hmode, husable⟩ := srsCheck_proceed_inv hcheck
    obtain ⟨spsrv, -, hstorable, -⟩ := (srsBody_next_iff ..).mp hbody
    rw [storeAddress_decodeLine] at hstorable
    have hsaves := savesReturnState_of_not_userOrSystem hcur hel hmodes
    exact ⟨target, hmode, currentMode_num hcur, hel, hsaves, husable, hstorable⟩
  · rintro ⟨target, rfl, hready⟩
    have ⟨_, _, hsaves, _⟩ := hready
    obtain ⟨spsrv, hspsr⟩ := readSPSR_isSome hsaves s
    exact ⟨_, exec_of_ready hready hspsr hcond⟩

end Sys2Proof.Machine
end

section
/-! Placing a word (70_reset_and_hazards.md R174, 30_encoding.md R74, R80): its bytes become a program
of one instruction that stands at `pc`, in the instruction set in which the word is an SRS. -/

namespace Sys2Proof

theorem layout_length (iset : InstrSet) (w : Word) : (layout iset w).length = 4 := by
  cases iset <;> rfl

/-- A word of the table that decodes does so from its bytes, in the set that is found for it. -/
theorem decodeTableWord_inv {nbits w : Nat} {i : Instr} (h : decodeTableWord nbits w = some i) :
    isetOfWord (tableWord nbits w) = some i.iset ∧
      ∃ rest, decode i.iset (layout i.iset (tableWord nbits w)) = .ok (i, rest) := by
  unfold decodeTableWord at h
  split at h
  · cases h
  · next iset hiset =>
    split at h
    · next j rest hdecode =>
      obtain rfl : j = i := Option.some.inj h
      obtain ⟨rfl, -⟩ := (decode_eq_ok_iff_encode ..).mp hdecode
      exact ⟨hiset, rest, hdecode⟩
    · cases h

namespace Machine

theorem programOffset_placeWord (s : State) (w : Word) : programOffset (placeWord s w) = 0 := by
  simp [programOffset]

/-- The bytes of a placed word are fetched whole. -/
theorem fetch_placeWord (s : State) (w : Word) :
    fetch (placeWord s w) = .bytes (layout (placeWord s w).iset w) := by
  have hlength : (placeWord s w).program.bytes.length = 4 := layout_length ..
  have hoffset := programOffset_placeWord s w
  rw [fetch_eq_bytes (by rw [hoffset]) (by rw [hoffset, hlength]), hoffset]
  rfl

/-- Settles O54: the word's bytes stand whole at `pc`, in the set in which they decode to `i`. -/
theorem placedWordsRun : Obligations.PlacedWordsRun := by
  intro s nbits w i h
  obtain ⟨hset, rest, hdecode⟩ := decodeTableWord_inv h
  have hiset : (s.withFetchWord nbits w).iset = i.iset := by
    rw [State.withFetchWord, placeWord_iset, hset, Option.getD_some]
  have hfetch := fetch_placeWord s (tableWord nbits w)
  rw [← hiset] at hdecode
  exact ⟨step_eq_exec (fetchInstr_eq_ok hfetch hdecode), rfl, hiset⟩

end Machine
end Sys2Proof
end

section
/-! The end of a run (70_reset_and_hazards.md R174, log entry 9): what the step answers where no
instruction stands at `pc`. -/

namespace Sys2Proof.Machine

variable {s : State}

theorem fetch_eq_ended (hended : programOffset s = s.program.bytes.length) : fetch s = .ended :=
  if_pos hended

theorem fetch_eq_outside (hended : programOffset s ≠ s.program.bytes.length)
    (hplace : programOffset s % 4 ≠ 0 ∨ s.program.bytes.length < programOffset s + 4) :
    fetch s = .outside := by
  have hnot : ¬(programOffset s % 4 = 0 ∧ programOffset s + 4 ≤ s.program.bytes.length) := by omega
  rw [fetch, if_neg hended, if_neg hnot]

theorem step_of_fetch_eq_ended (h : fetch s = .ended) : step s = .refused (.runEnded s.pc) := by
  simp only [step, fetchInstr, h]

theorem step_of_fetch_eq_outside (h : fetch s = .outside) :
    step s = .refused (.outsideProgram s.pc) := by
  simp only [step, fetchInstr, h]

/-- Settles O53: the fetch tells the end of the program from every other place without an
instruction, and the step refuses with the reason of each. -/
theorem runsEndJustPastTheProgram : Obligations.RunsEndJustPastTheProgram :=
  fun _ => ⟨fun hended => step_of_fetch_eq_ended (fetch_eq_ended hended),
    fun hended hplace => step_of_fetch_eq_outside (fetch_eq_outside hended hplace)⟩

end Sys2Proof.Machine
end
